-- ==== Sys2Proof/Word.lean ====
section
/-! DEFINITION. The bit-vector types of the block: 64-bit registers, 32-bit command words, bytes. -/

namespace Sys2Proof

/-- A 64-bit register or word of the store (`10_state.md` R22, R26). -/
abbrev Word := BitVec 64

/-- A 32-bit command word (`30_encoding.md` R60). -/
abbrev CmdWord := BitVec 32

/-- A byte lane of the host bus or a byte of the word store (`20_memory.md` R49). -/
abbrev Byte := BitVec 8

end Sys2Proof
end

