-- ==== Sys2Proof/Config.lean ====
section
/-! DEFINITION. What an implementation fixes: the hardwired parameters `LUT_S` and `MAX_WORDS` and
the platform's base address (`00_scope.md` R5, `92_eei_decisions.md` D10, D16, D39). -/

namespace Sys2Proof

/-- The hardwired parameters (R5, R29). The machine carries them in its state, where no step changes
them, so that a statement about every state is a statement about every parameter (log 2). -/
structure Params where
  /-- `LUT_S`, the pattern width of the LUT ROM. -/
  lutS : Nat
  /-- `MAX_WORDS`, the capacity of the word store in 64-bit words. -/
  maxWords : Nat
  deriving DecidableEq, Repr

/-- The defaults of R5: `LUT_S = 8`, `MAX_WORDS = 2^20`. -/
def Params.default : Params where
  lutS := 8
  maxWords := 2 ^ 20

/-- The number of the 64-byte block at which the platform places the window: a free value (D39). -/
opaque Config.baseBlock : Nat

/-- `BASE` (R48): chosen by the platform, 64-byte aligned (D39), otherwise uninterpreted. -/
def Config.base : Nat := 64 * Config.baseBlock

end Sys2Proof
end

