-- ==== Sys2Proof/Syntax.lean ====
section
/-! DEFINITION. The commands (one constructor per row of `opcode_table.json`), the register names of
R37, and the assembler's lines and pseudo-instructions (`30_encoding.md` R62, R68, R69). -/

namespace Sys2Proof

/-- The sixteen commands of R62. A command word has no field but `OP`: the operands are the values in
`ARG0` and `ARG1` (R61), so no constructor has an argument. -/
inductive Instr where
  | nop | new | push | len | get | range | rangen
  | build | rank1 | rank0 | select1 | select0
  | getreg | setreg
  | lutr | luts
  deriving DecidableEq, Repr

/-- The registers that GETREG and SETREG address by number (`10_state.md` R37). -/
inductive RegName where
  | status | unit | len | nbits | nwords | lutS | maxWords
  | cfgRankS | cfgRankL | cfgSelP | cfgSelDmax | cfgSelBranch | cfgSelLeaf
  | effRankS | effRankL | effSelP | effSelDmax | effSelBranch | effSelLeaf
  | pop1 | pop0 | ngroups1 | ngroups0
  deriving DecidableEq, Repr

/-- One assembler line `MNEMONIC`, `MNEMONIC a0` or `MNEMONIC a0, a1` (R68); an operand left out
means that the port register keeps its value. -/
structure AsmLine where
  instr : Instr
  a0 : Option Word
  a1 : Option Word
  deriving DecidableEq, Repr

/-- The pseudo-instructions of R69. -/
inductive Pseudo where
  | construct (bits : List Bool)
  | access (i : Word)
  | rank (i : Word) (b : Bool)
  | select (i : Word) (b : Bool)
  | setcfg (name : RegName) (v : Word)
  | read (name : RegName)
  deriving DecidableEq, Repr

/-- A line of a program: a command or a pseudo-instruction. -/
inductive SourceLine where
  | command (line : AsmLine)
  | pseudo (p : Pseudo)
  deriving DecidableEq, Repr

end Sys2Proof
end

