-- ==== Sys2Proof/WellFormed.lean ====
section
/-! DEFINITION. Which terms are well formed: commands (all of them), assembler lines, parameters. -/

namespace Sys2Proof

/-- A command has no field (R60, R61), so every command is well formed. -/
def Instr.wellFormed : Instr → Bool
  | .nop | .new | .push | .len | .get | .range | .rangen => true
  | .build | .rank1 | .rank0 | .select1 | .select0 => true
  | .getreg | .setreg | .lutr | .luts => true

/-- The operand count of R62. -/
def Instr.operandCount : Instr → Nat
  | .nop | .len | .build => 0
  | .new | .push | .get | .rank1 | .rank0 | .select1 | .select0 | .getreg => 1
  | .range | .rangen | .setreg | .lutr | .luts => 2

/-- R68: a line has at most the operands R62 gives its command, and no second operand without a first. -/
def AsmLine.wellFormed (l : AsmLine) : Bool :=
  (l.a0.isNone || 1 ≤ l.instr.operandCount) &&
  (l.a1.isNone || (2 ≤ l.instr.operandCount && l.a0.isSome))

/-- What the rules take for granted of the hardwired parameters (log 2): a pattern has 1 to 64 bits
(R86's legal default `s ≥ 1`, R103's `LUT_S ≤ 64`), and `NBITS` fits a 64-bit register (R6, R37). -/
def Params.wellFormed (p : Params) : Bool :=
  1 ≤ p.lutS && p.lutS ≤ 64 && 64 * p.maxWords < 2 ^ 64

end Sys2Proof
end

