-- ==== Sys2Proof/Decode.lean ====
section
/-! DEFINITION. Decoding a command word (`30_encoding.md` R60, R62, R64), total and rejecting by name,
and after it the encoder, from the same opcode map. -/

namespace Sys2Proof

/-- The `OP` value of each row of R62. -/
def Instr.opcode : Instr → BitVec 8
  | .nop => 0x00
  | .new => 0x01
  | .push => 0x02
  | .len => 0x03
  | .get => 0x04
  | .range => 0x05
  | .rangen => 0x06
  | .build => 0x10
  | .rank1 => 0x11
  | .rank0 => 0x12
  | .select1 => 0x13
  | .select0 => 0x14
  | .getreg => 0x20
  | .setreg => 0x21
  | .lutr => 0x30
  | .luts => 0x31

/-- The rows of R62, in the order of the map. -/
def Instr.rows : List Instr :=
  [.nop, .new, .push, .len, .get, .range, .rangen, .build, .rank1, .rank0, .select1, .select0,
   .getreg, .setreg, .lutr, .luts]

/-- Why a command word is illegal (R64), or why bytes hold no command word. -/
inductive DecodeError where
  /-- `RSV ≠ 0` (bits [31:8]). -/
  | reservedBits
  /-- `OP` is not in R62. -/
  | unassignedOpcode
  /-- Fewer bytes than one 32-bit command word has. -/
  | shortInput
  deriving DecidableEq, Repr

/-- `OP`, bits [7:0] (R60). -/
def opField (c : CmdWord) : BitVec 8 := c.extractLsb' 0 8

/-- `RSV`, bits [31:8] (R60). -/
def rsvField (c : CmdWord) : BitVec 24 := c.extractLsb' 8 24

/-- R62, R64: a word selects its row exactly when `RSV = 0` and `OP` is the row's value. -/
def decode (c : CmdWord) : Except DecodeError Instr :=
  if rsvField c ≠ 0 then .error .reservedBits
  else
    match Instr.rows.find? (fun i => i.opcode == opField c) with
    | some i => .ok i
    | none => .error .unassignedOpcode

/-- The number whose bytes, lowest lane first, are `bs` (R49: little-endian). -/
def natOfLanes : List Byte → Nat
  | [] => 0
  | b :: bs => b.toNat + 2 ^ 8 * natOfLanes bs

/-- The byte lanes of a 64-bit bus value: lane `k` holds bits [8k+7:8k] (R49). -/
def busLanes (v : Word) : List Byte := (List.range 8).map (fun k => v.extractLsb' (8 * k) 8)

/-- The command in the low four byte lanes of a `CMD` write, and the lanes that follow (R48, R49). -/
def decodeBytes : List Byte → Except DecodeError (Instr × List Byte)
  | b0 :: b1 :: b2 :: b3 :: rest => (decode (BitVec.ofNat 32 (natOfLanes [b0, b1, b2, b3]))).map (·, rest)
  | _ => .error .shortInput

/-- The command word of a command: `0x000000OP` (R62). -/
def encode (i : Instr) : CmdWord := (0#24 ++ i.opcode : BitVec 32)

/-- The word of an opcode-table row, cut to the row's bits, as its little-endian lanes (R49). -/
def tableWordLanes (nbits w : Nat) : List Byte :=
  (busLanes (BitVec.ofNat 64 (w % 2 ^ min nbits 32))).take 4

/-- The command the decoder reads from an instruction whose bits are `w`. -/
def decodeTableWord (nbits w : Nat) : Option Instr :=
  match decodeBytes (tableWordLanes nbits w) with
  | .ok (i, _) => some i
  | .error _ => none

end Sys2Proof
end

