-- ==== Sys2Proof/Machine/Arith.lean ====
section
/-! DEFINITION. The helper functions of `00_scope.md` R7 and R8, exact on naturals (R6). -/

namespace Sys2Proof.Machine

/-- `mask(len) = 2^len - 1` (R7). -/
def mask (len : Nat) : Nat := 2 ^ len - 1

/-- `fl2(n)`: `⌊log₂ n⌋`, and 0 for `n = 0` (R8). -/
def fl2 (n : Nat) : Nat := Nat.log2 n

/-- `bitlen(n)`: the number of binary digits, `bitlen(0) = 0` (R8). -/
def bitlen (n : Nat) : Nat := if n = 0 then 0 else fl2 n + 1

/-- `popcount(v)`: the number of 1 bits of `v` (R7). -/
def popcount (v : Nat) : Nat := (List.range (bitlen v)).countP (fun k => v.testBit k)

/-- `icbrt(n)`: the largest `c` with `c³ ≤ n` (R8). -/
def icbrt (n : Nat) : Nat := Nat.findGreatest (fun c => c ^ 3 ≤ n) n

/-- `ceil_div(a, b)` (R8). -/
def ceilDiv (a b : Nat) : Nat := (a + b - 1) / b

end Sys2Proof.Machine
end

