-- ==== Sys2Proof/Machine/State.lean ====
section
/-! DEFINITION. Everything the spec gives the block as state (`10_state.md`), the host's accesses that
have not arrived yet, the reasons a step can stop, and the state after reset (R38). -/

namespace Sys2Proof.Machine

/-- `STATUS.PHASE` (R23, R24). The encoding 2 is never held, so it has no constructor. -/
inductive Phase where
  | opened | built | faulted
  deriving DecidableEq, Repr

/-- `STATUS.FAULT` (`60_exceptions.md` R125), in the order of the codes 0x00 to 0x0E; no other code is
ever held. These are the block's own recorded faults: raising one is a next state (R126). -/
inductive FaultCode where
  | noFault | illegalCmd | badWidth | overwide | capacity | rangeOrder | rangeWidth | frozen
  | notBuilt | buildUnit | badConfig | rankIndex | selectIndex | regAccess | lutIndex
  deriving DecidableEq, Repr

/-- The word store as (byte address, byte) cells: stream bit `p` (R40) is bit `p mod 8` of byte
`p div 8`, so byte `k` of `WORD[w]` is at address `8w + k` (log 4). An unlisted byte reads 0 (R38, R44). -/
abbrev Memory := List Host.Cell

/-- The canonical form: addresses strictly rising, and no listed byte equal to the 0 an unlisted one
reads as. -/
abbrev Memory.wf (m : Memory) : Prop :=
  m.Pairwise (fun c d => c.1 < d.1) ∧ ∀ c ∈ m, c.2 ≠ 0

/-- The command-port registers (R22). `CMD` is a trigger and holds nothing. -/
structure Port where
  arg0 : Word
  arg1 : Word
  result : Word
  deriving DecidableEq, Repr

/-- The fields of `STATUS` (R23). -/
structure Status where
  phase : Phase
  fault : FaultCode
  faultCmd : CmdWord
  deriving DecidableEq, Repr

/-- The packed array (R25, R26): `UNIT`, `LEN` and the word store. -/
structure PackedArray where
  unit : BitVec 7
  len : Word
  mem : Memory
  deriving DecidableEq, Repr

/-- Six 64-bit parameter registers: the `CFG_*` (R30) or the `EFF_*` (R31), in the order of R37. -/
structure ParamRegs where
  rankS : Word
  rankL : Word
  selP : Word
  selDmax : Word
  selBranch : Word
  selLeaf : Word
  deriving DecidableEq, Repr

/-- All six registers 0. -/
def ParamRegs.zero : ParamRegs where
  rankS := 0
  rankL := 0
  selP := 0
  selDmax := 0
  selBranch := 0
  selLeaf := 0

/-- The storage of a group (R34); the constructor is the `TAG`. `sparse` holds `POS_b[g]`, `dense`
holds `LEVELS_b[g]`, top level first. -/
inductive GroupStore where
  | sparse (positions : List Nat)
  | dense (levels : List (List Nat))
  deriving DecidableEq, Repr

/-- A directory record `DIR_b[g]` (R34). -/
structure Group where
  start : Nat
  last : Nat
  cnt : Nat
  store : GroupStore
  deriving DecidableEq, Repr

/-- What BUILD writes and NEW and reset empty: `EFF_*` (R31), the counts (R35), the rank counters (R32)
and the two select directories (R33). -/
structure Index where
  eff : ParamRegs
  pop1 : Word
  pop0 : Word
  ngroups1 : Word
  ngroups0 : Word
  large : List Nat
  small : List Nat
  dir1 : List Group
  dir0 : List Group
  deriving DecidableEq, Repr

/-- The index after reset and NEW: registers 0, storage empty (R38, R71). -/
def Index.empty : Index where
  eff := ParamRegs.zero
  pop1 := 0
  pop0 := 0
  ngroups1 := 0
  ngroups0 := 0
  large := []
  small := []
  dir1 := []
  dir0 := []

/-- The eight 64-bit registers of the host-bus window (`20_memory.md` R48), in offset order. An access
of another width or at another offset is outside the interface (R49, I13) and has no term here. -/
inductive BusReg where
  | cmd | arg0 | arg1 | result | status | reserved28 | reserved30 | reserved38
  deriving DecidableEq, Repr

/-- What reaches the block from outside, each between two commands (R51, R145). -/
inductive HostEvent where
  | write (r : BusReg) (v : Word)
  | read (r : BusReg)
  | reset
  deriving DecidableEq, Repr

/-- The state of the block. `pending` and `busRead` are the model's own: the host's accesses and resets
in arrival order, oldest first (log 1), and the value the last host read returned (log 5). -/
structure State where
  port : Port
  status : Status
  array : PackedArray
  /-- `LUT_S_REG` and `MAX_WORDS_REG` (R29): never written. -/
  hw : Params
  cfg : ParamRegs
  index : Index
  pending : List HostEvent
  busRead : Word
  deriving DecidableEq, Repr

/-- The reasons the model stops. No reachable state raises one. -/
inductive Fault where
  /-- A `WINDOW` call whose residual is not below the sum of its counts: the internal fault of R80 and
  I4. Raised by the select descent. Safe: the model stops where the spec gives no result. -/
  | windowUndefined
  /-- An index entry or ROM entry that the rules read does not exist (`LARGE`, `SMALL`, `DIR_b`,
  `POS_b`, `LEVELS_b`, a ROM row): only in a BUILT state that no BUILD made. Raised by the rank and
  select lookups. Safe: the model stops where the spec gives no result (log 8). -/
  | indexEntryAbsent
  deriving DecidableEq, Repr

/-- The reasons an instruction has no meaning. -/
inductive Refusal where
  /-- Raised by `exec`'s arms for an instruction not modelled yet (none is left). Safe. -/
  | notModelled (mnemonic : String)
  deriving DecidableEq, Repr

/-- Why the evaluation of a command ends early: it raises a fault of R125, or the model stops. -/
inductive Stop where
  | raise (c : FaultCode)
  | internal (f : Fault)
  deriving DecidableEq, Repr

/-- The evaluation of a command's pseudocode: a value, or the first check that fails. -/
abbrev Eval (α : Type) := Except Stop α

/-- R38, R37: the block after reset, with the default parameters of R5 (log 2); nothing has reached
the port yet (log 1) and no host read has been answered (log 5). -/
def State.reset : State where
  port := { arg0 := 0, arg1 := 0, result := 0 }
  status := { phase := .opened, fault := .noFault, faultCmd := 0 }
  array := { unit := 1, len := 0, mem := [] }
  hw := Params.default
  cfg := ParamRegs.zero
  index := Index.empty
  pending := []
  busRead := 0

end Sys2Proof.Machine
end

