-- ==== Sys2Proof/Machine/Flags.lean ====
section
/-! DEFINITION. `STATUS` (`10_state.md` R23): the codes of `PHASE` and `FAULT` and the whole register.
The block has no other flags or condition codes. -/

namespace Sys2Proof.Machine

/-- `PHASE` as bits [1:0] (R23). -/
def Phase.code : Phase → BitVec 2
  | .opened => 0
  | .built => 1
  | .faulted => 3

/-- `FAULT` as bits [15:8] (R125). -/
def FaultCode.code : FaultCode → BitVec 8
  | .noFault => 0x00
  | .illegalCmd => 0x01
  | .badWidth => 0x02
  | .overwide => 0x03
  | .capacity => 0x04
  | .rangeOrder => 0x05
  | .rangeWidth => 0x06
  | .frozen => 0x07
  | .notBuilt => 0x08
  | .buildUnit => 0x09
  | .badConfig => 0x0A
  | .rankIndex => 0x0B
  | .selectIndex => 0x0C
  | .regAccess => 0x0D
  | .lutIndex => 0x0E

/-- The 64-bit `STATUS` register (R23): reserved [63:48], `FAULT_CMD` [47:16], `FAULT` [15:8],
reserved [7:2], `PHASE` [1:0]. -/
def Status.word (st : Status) : Word :=
  (0#16 ++ st.faultCmd ++ st.fault.code ++ 0#6 ++ st.phase.code : BitVec 64)

end Sys2Proof.Machine
end

