-- ==== Sys2Proof/Machine/Ops.lean ====
section
/-! DEFINITION. The shared operations: the word store (`20_memory.md` R40 to R44), the named updates of
State, raising a fault (`60_exceptions.md` R126), and running a command's checks and writes (R67). -/

namespace Sys2Proof.Machine

/-! ### The word store -/

/-- The byte at a byte address; 0 where none is listed (R38, R44). -/
def Memory.readByte : Memory → Nat → Byte
  | [], _ => 0
  | (b, w) :: m, a => if a = b then w else Memory.readByte m a

/-- Write one byte, keeping the canonical form: writing 0 removes the entry. -/
def Memory.writeByte : Memory → Nat → Byte → Memory
  | [], a, v => if v = 0 then [] else [(a, v)]
  | (b, w) :: m, a, v =>
    if a < b then (if v = 0 then (b, w) :: m else (a, v) :: (b, w) :: m)
    else if a = b then (if v = 0 then m else (a, v) :: m)
    else (b, w) :: Memory.writeByte m a v

/-- Stream bit `q` (R40, R41 `Bit`). -/
def streamBit (m : Memory) (q : Nat) : Bool := (m.readByte (q / 8)).getLsbD (q % 8)

/-- A byte with one bit replaced. -/
def byteWithBit (w : Byte) (k : Nat) (v : Bool) : Byte :=
  (w &&& ~~~((1 : Byte) <<< k)) ||| (if v then (1 : Byte) <<< k else 0)

/-- Set stream bit `q`. -/
def setStreamBit (m : Memory) (q : Nat) (v : Bool) : Memory :=
  m.writeByte (q / 8) (byteWithBit (m.readByte (q / 8)) (q % 8) v)

/-- `MemRead(p, len)` (R41): the sum over `t < len` of `Bit(p + t) * 2^t`. -/
def memRead (m : Memory) (p : Nat) : Nat → Nat
  | 0 => 0
  | t + 1 => memRead m p t + (if streamBit m (p + t) then 2 ^ t else 0)

/-- `MemWrite(p, len, v)` (R43): set stream bit `p + t` to bit `t` of `v` for every `t < len`. -/
def memWrite (m : Memory) (p : Nat) : Nat → Nat → Memory
  | 0, _ => m
  | t + 1, v => setStreamBit (memWrite m p t v) (p + t) (v.testBit t)

/-- `WORD[k]` (R26): its byte `j` is the byte at address `8k + j`. -/
def Memory.word (m : Memory) (k : Nat) : Word :=
  (m.readByte (8 * k + 7) ++ m.readByte (8 * k + 6) ++ m.readByte (8 * k + 5) ++ m.readByte (8 * k + 4) ++
    m.readByte (8 * k + 3) ++ m.readByte (8 * k + 2) ++ m.readByte (8 * k + 1) ++ m.readByte (8 * k) : BitVec 64)

/-- R42: the read as the hardware does it, merging at most two adjacent words. -/
def memReadMerge (m : Memory) (p len : Nat) : Nat :=
  let w := p / 64
  let o := p % 64
  let lo := (m.word w).toNat >>> o
  let hi := if 64 < o + len then ((m.word (w + 1)).toNat <<< (64 - o)) % 2 ^ 64 else 0
  (lo ||| hi) &&& mask len

/-- `pop_b(B[lo, hi))` (`00_scope.md` R10): how many positions in `[lo, hi)` hold the bit value `b`. -/
def popRange (m : Memory) (b : Bool) (lo hi : Nat) : Nat :=
  (List.range' lo (hi - lo)).countP (fun p => streamBit m p == b)

/-! ### Named reads and updates of State -/

/-- `NBITS = LEN * UNIT` (R27). -/
def PackedArray.nbits (a : PackedArray) : Nat := a.len.toNat * a.unit.toNat

/-- `NWORDS = ceil_div(NBITS, 64)` (R27). -/
def PackedArray.nwords (a : PackedArray) : Nat := ceilDiv a.nbits 64

/-- `x[RESULT] <- v` (R9). -/
def State.setResult (s : State) (v : Word) : State := { s with port := { s.port with result := v } }

/-- The host's write of `ARG0` (R48). -/
def State.setArg0 (s : State) (v : Word) : State := { s with port := { s.port with arg0 := v } }

/-- The host's write of `ARG1` (R48). -/
def State.setArg1 (s : State) (v : Word) : State := { s with port := { s.port with arg1 := v } }

/-- `PHASE <- p` (R24). -/
def State.setPhase (s : State) (p : Phase) : State := { s with status := { s.status with phase := p } }

/-- Replace the packed array. -/
def State.setArray (s : State) (a : PackedArray) : State := { s with array := a }

/-- Replace the configuration registers. -/
def State.setCfg (s : State) (c : ParamRegs) : State := { s with cfg := c }

/-- Replace the index. -/
def State.setIndex (s : State) (x : Index) : State := { s with index := x }

/-- The value a host read returns. -/
def State.setBusRead (s : State) (v : Word) : State := { s with busRead := v }

/-- What is still to arrive at the port. -/
def State.setPending (s : State) (l : List HostEvent) : State := { s with pending := l }

/-! ### Taking a fault -/

/-- `raise Fault(CODE)` while executing the command word `c` (R126): the first fault since reset is
recorded, and nothing else changes. There is no handler and no return (R130, R131). -/
def raiseFault (code : FaultCode) (c : CmdWord) (s : State) : State :=
  if s.status.phase = .faulted then s
  else { s with status := { phase := .faulted, fault := code, faultCmd := c } }

/-- Reset (`70_reset_and_hazards.md` R145): every piece of state takes its value of R38. The hardwired
parameters, what has not arrived yet and the last answered read are not the block's to reset (log 6). -/
def resetState (s : State) : State :=
  { State.reset with hw := s.hw, pending := s.pending, busRead := s.busRead }

/-! ### Running a command -/

/-- A check of a rule: `if p: raise Fault(c)`. -/
def failIf (p : Prop) [Decidable p] (c : FaultCode) : Eval Unit :=
  if p then .error (.raise c) else .ok ()

/-- An entry that the rules read, or the internal stop where it does not exist (log 8). -/
def entry {α : Type} : Option α → Eval α
  | some a => .ok a
  | none => .error (.internal .indexEntryAbsent)

/-- The end of a command: its writes, or the fault of the first check that failed (R126), or the
model's stop. -/
def conclude (i : Instr) (s : State) : Eval State → Host.Outcome State Fault Refusal
  | .ok t => .next t
  | .error (.raise c) => .next (raiseFault c (encode i) s)
  | .error (.internal f) => .fault f

/-- A command that phase `FAULTED` ignores (R67 step 1; log 9): all but NOP and GETREG. -/
def runCommand (i : Instr) (s : State) (body : Eval State) : Host.Outcome State Fault Refusal :=
  if s.status.phase = .faulted then .next s else conclude i s body

/-- A command whose only write is `x[RESULT] <- zext_64(v)`. -/
def resultOf (s : State) (v : Eval Nat) : Eval State := v.map (fun n => s.setResult (BitVec.ofNat 64 n))

/-- `EXTRACT(start, end, inv)` (`40_bitpacked_array.md` R70). -/
def extract (a : PackedArray) (start stop : Nat) (inv : Bool) : Eval Nat := do
  failIf (start > stop) .rangeOrder
  failIf (stop - start > 64) .rangeWidth
  let e := min stop a.nbits
  failIf (start > e) .rangeOrder
  let len := e - start
  let raw := memRead a.mem start len
  return if inv then mask len - raw else raw

end Sys2Proof.Machine
end

