-- ==== Sys2Proof/Machine/Operands.lean ====
section
/-! DEFINITION. The operand forms: a port register as a natural (`30_encoding.md` R61), and a register
number (`10_state.md` R37) with what a read and a write of each register do. -/

namespace Sys2Proof.Machine

/-- The first operand: `ARG0` as is (R61). -/
def State.op0 (s : State) : Nat := s.port.arg0.toNat

/-- The second operand: `ARG1` as is (R61). -/
def State.op1 (s : State) : Nat := s.port.arg1.toNat

/-- The number of a register (R37). -/
def regNumber : RegName → Nat
  | .status => 0x00
  | .unit => 0x01
  | .len => 0x02
  | .nbits => 0x03
  | .nwords => 0x04
  | .lutS => 0x05
  | .maxWords => 0x06
  | .cfgRankS => 0x10
  | .cfgRankL => 0x11
  | .cfgSelP => 0x12
  | .cfgSelDmax => 0x13
  | .cfgSelBranch => 0x14
  | .cfgSelLeaf => 0x15
  | .effRankS => 0x20
  | .effRankL => 0x21
  | .effSelP => 0x22
  | .effSelDmax => 0x23
  | .effSelBranch => 0x24
  | .effSelLeaf => 0x25
  | .pop1 => 0x30
  | .pop0 => 0x31
  | .ngroups1 => 0x32
  | .ngroups0 => 0x33

/-- The registers of R37. -/
def regNames : List RegName :=
  [.status, .unit, .len, .nbits, .nwords, .lutS, .maxWords,
   .cfgRankS, .cfgRankL, .cfgSelP, .cfgSelDmax, .cfgSelBranch, .cfgSelLeaf,
   .effRankS, .effRankL, .effSelP, .effSelDmax, .effSelBranch, .effSelLeaf,
   .pop1, .pop0, .ngroups1, .ngroups0]

/-- The register with a given number; a number that is not in R37 is reserved. -/
def regOfNumber (n : Nat) : Option RegName := regNames.find? (fun r => regNumber r == n)

/-- `reg[r]` as GETREG reads it (R37, R114): derived registers give their current value. -/
def regValue (s : State) : RegName → Word
  | .status => s.status.word
  | .unit => s.array.unit.setWidth 64
  | .len => s.array.len
  | .nbits => BitVec.ofNat 64 s.array.nbits
  | .nwords => BitVec.ofNat 64 s.array.nwords
  | .lutS => BitVec.ofNat 64 s.hw.lutS
  | .maxWords => BitVec.ofNat 64 s.hw.maxWords
  | .cfgRankS => s.cfg.rankS
  | .cfgRankL => s.cfg.rankL
  | .cfgSelP => s.cfg.selP
  | .cfgSelDmax => s.cfg.selDmax
  | .cfgSelBranch => s.cfg.selBranch
  | .cfgSelLeaf => s.cfg.selLeaf
  | .effRankS => s.index.eff.rankS
  | .effRankL => s.index.eff.rankL
  | .effSelP => s.index.eff.selP
  | .effSelDmax => s.index.eff.selDmax
  | .effSelBranch => s.index.eff.selBranch
  | .effSelLeaf => s.index.eff.selLeaf
  | .pop1 => s.index.pop1
  | .pop0 => s.index.pop0
  | .ngroups1 => s.index.ngroups1
  | .ngroups0 => s.index.ngroups0

/-- The configuration registers with register `r` written; none where `r` is read-only (R37). -/
def cfgWrite (c : ParamRegs) (v : Word) : RegName → Option ParamRegs
  | .cfgRankS => some { c with rankS := v }
  | .cfgRankL => some { c with rankL := v }
  | .cfgSelP => some { c with selP := v }
  | .cfgSelDmax => some { c with selDmax := v }
  | .cfgSelBranch => some { c with selBranch := v }
  | .cfgSelLeaf => some { c with selLeaf := v }
  | .status | .unit | .len | .nbits | .nwords | .lutS | .maxWords => none
  | .effRankS | .effRankL | .effSelP | .effSelDmax | .effSelBranch | .effSelLeaf => none
  | .pop1 | .pop0 | .ngroups1 | .ngroups0 => none

end Sys2Proof.Machine
end

