-- ==== Sys2Proof/Machine/Array.lean ====
section
/-! DEFINITION. The bit-packed array commands (`40_bitpacked_array.md` R71 to R76). -/

namespace Sys2Proof.Machine

/-- R71: the empty array of width `w`, the empty index, phase OPEN. -/
def newEffect (s : State) : Eval State := do
  failIf (s.op0 > 64) .badWidth
  return ((s.setArray { unit := BitVec.ofNat 7 s.op0, len := 0, mem := [] }).setIndex Index.empty).setPhase .opened

/-- NEW (R71). -/
def execNew (s : State) : Host.Outcome State Fault Refusal := runCommand .new s (newEffect s)

/-- R72: append the element `v` at stream bit `l * u`. -/
def pushEffect (s : State) : Eval State := do
  failIf (s.status.phase = .built) .frozen
  let v := s.op0
  let u := s.array.unit.toNat
  let l := s.array.len.toNat
  failIf (u < 64 ∧ v ≥ 2 ^ u) .overwide
  failIf (l = 2 ^ 64 - 1 ∨ (l + 1) * u > 64 * s.hw.maxWords) .capacity
  return s.setArray { s.array with len := BitVec.ofNat 64 (l + 1), mem := memWrite s.array.mem (l * u) u v }

/-- PUSH (R72). -/
def execPush (s : State) : Host.Outcome State Fault Refusal := runCommand .push s (pushEffect s)

/-- LEN (R73). -/
def execLen (s : State) : Host.Outcome State Fault Refusal := runCommand .len s (.ok (s.setResult s.array.len))

/-- GET (R74): `EXTRACT(i * u, (i + 1) * u, 0)`, the products exact. -/
def execGet (s : State) : Host.Outcome State Fault Refusal :=
  runCommand .get s
    (resultOf s (extract s.array (s.op0 * s.array.unit.toNat) ((s.op0 + 1) * s.array.unit.toNat) false))

/-- RANGE (R75). -/
def execRange (s : State) : Host.Outcome State Fault Refusal :=
  runCommand .range s (resultOf s (extract s.array s.op0 s.op1 false))

/-- RANGEN (R76). -/
def execRangen (s : State) : Host.Outcome State Fault Refusal :=
  runCommand .rangen s (resultOf s (extract s.array s.op0 s.op1 true))

end Sys2Proof.Machine
end

