-- ==== Sys2Proof/Machine/Lut.lean ====
section
/-! DEFINITION. The LUT ROM (`41_lut_rom.md` R77 to R80) and its read port, LUTR and LUTS (R81, R82).
The tables are constants: functions of `LUT_S` and their indices. -/

namespace Sys2Proof.Machine

/-- `RANK_TABLE[p][k] = popcount(p mod 2^k)` (R78). -/
def rankTable (p k : Nat) : Nat := popcount (p % 2 ^ k)

/-- `SELECT_TABLE[p][k]` (R79): the least `q` with `popcount(p mod 2^(q+1)) = k + 1`, and the sentinel
`LUT_S` for `k ≥ popcount(p)`. -/
def selectTable (lutS p k : Nat) : Nat :=
  if k < popcount p then
    ((List.range lutS).find? (fun q => popcount (p % 2 ^ (q + 1)) == k + 1)).getD lutS
  else lutS

/-- The entry of `RANK_TABLE`, where the row and the column exist (R77). -/
def rankTable? (lutS p k : Nat) : Option Nat :=
  if p < 2 ^ lutS ∧ k ≤ lutS then some (rankTable p k) else none

/-- The entry of `SELECT_TABLE`, where the row and the column exist (R77). -/
def selectTable? (lutS p k : Nat) : Option Nat :=
  if p < 2 ^ lutS ∧ k < lutS then some (selectTable lutS p k) else none

/-- The scan of `WINDOW` from count index `j`, with the counts before it summing to `before`. -/
def windowFrom (j before : Nat) : List Nat → Nat → Option (Nat × Nat)
  | [], _ => none
  | x :: xs, r => if before + x > r then some (j, before) else windowFrom (j + 1) (before + x) xs r

/-- `WINDOW(c, r)` (R80): the child and the cumulative count before it; no result for `r ≥ sum(c)`. -/
def window (c : List Nat) (r : Nat) : Option (Nat × Nat) := windowFrom 0 0 c r

/-- The ROM read of LUTR or LUTS: `LUT_INDEX` where the row or column does not exist. -/
def lutRead : Option Nat → Eval Nat
  | some v => .ok v
  | none => .error (.raise .lutIndex)

/-- LUTR (R81). -/
def execLutr (s : State) : Host.Outcome State Fault Refusal :=
  runCommand .lutr s (resultOf s (lutRead (rankTable? s.hw.lutS s.op0 s.op1)))

/-- LUTS (R82). -/
def execLuts (s : State) : Host.Outcome State Fault Refusal :=
  runCommand .luts s (resultOf s (lutRead (selectTable? s.hw.lutS s.op0 s.op1)))

end Sys2Proof.Machine
end

