-- ==== Sys2Proof/Machine/Rank.lean ====
section
/-! DEFINITION. The rank block aggregator (`42_rank.md`): parameters, counters, RANK1 and RANK0. -/

namespace Sys2Proof.Machine

/-- A parameter: its configuration register, or the default where that holds 0 (R30). -/
def configured (r : Word) (default : Nat) : Nat := if r = 0 then default else r.toNat

/-- The effective small-block length `s` (R85). -/
def rankS (hw : Params) (cfg : ParamRegs) (n : Nat) : Nat :=
  configured cfg.rankS (min hw.lutS (max 1 (fl2 n / 2)))

/-- The effective large-block length `L` (R85). -/
def rankL (hw : Params) (cfg : ParamRegs) (n : Nat) : Nat :=
  configured cfg.rankL ((2 * rankS hw cfg n) ^ 2)

/-- The legality of R86. -/
abbrev rankLegal (lutS s L : Nat) : Prop := 1 ≤ s ∧ s ≤ lutS ∧ s ≤ L ∧ L % s = 0

/-- `LARGE` after BUILD (R87). -/
def largeCounts (m : Memory) (n L : Nat) : List Nat :=
  (List.range (n / L + 1)).map (fun k => popRange m true 0 (k * L))

/-- `SMALL` after BUILD (R87). -/
def smallCounts (m : Memory) (n s L : Nat) : List Nat :=
  (List.range (n / s + 1)).map (fun j => popRange m true ((j * s / L) * L) (j * s))

/-- `chunk(j)` (R89). -/
def chunk (a : PackedArray) (s j : Nat) : Eval Nat := extract a (j * s) (j * s + s) false

/-- One round of the build procedure of R88: `(total, within, LARGE, SMALL)` after chunk `j`. -/
def rankScanStep (a : PackedArray) (lutS s L : Nat) (acc : Nat × Nat × List Nat × List Nat) (j : Nat) :
    Eval (Nat × Nat × List Nat × List Nat) := do
  let (total, within, large, small) := acc
  let pos := j * s
  let large := if pos % L = 0 then large ++ [total] else large
  let within := if pos % L = 0 then 0 else within
  let small := small ++ [within]
  let pattern ← chunk a s j
  let c ← entry (rankTable? lutS pattern s)
  return (total + c, within + c, large, small)

/-- The build procedure of R88 over the chunks `j = 0, 1, …, n div s`. BUILD writes the contents of R87
(log 11); that this scan writes the same is a statement. -/
def rankScan (a : PackedArray) (lutS n s L : Nat) : Eval (List Nat × List Nat) := do
  let r ← (List.range (n / s + 1)).foldlM (rankScanStep a lutS s L) (0, 0, [], [])
  return (r.2.2.1, r.2.2.2)

/-- `LARGE[i div L] + SMALL[j] + RANK_TABLE[chunk(j)][i mod s]` with `j = i div s` (R90). -/
def rankLookup (s : State) (i : Nat) : Eval Nat := do
  let sb := s.index.eff.rankS.toNat
  let lb := s.index.eff.rankL.toNat
  let j := i / sb
  let large ← entry s.index.large[i / lb]?
  let small ← entry s.index.small[j]?
  let pattern ← chunk s.array sb j
  let c ← entry (rankTable? s.hw.lutS pattern (i % sb))
  return large + small + c

/-- The checks of RANK1 and RANK0 (R90, R91), then the lookup. -/
def rankQuery (s : State) : Eval Nat := do
  failIf (s.status.phase ≠ .built) .notBuilt
  failIf (s.op0 > s.array.len.toNat) .rankIndex
  rankLookup s s.op0

/-- RANK1 (R90). -/
def execRank1 (s : State) : Host.Outcome State Fault Refusal :=
  runCommand .rank1 s (resultOf s (rankQuery s))

/-- RANK0 (R91): `i - R1(i)`. -/
def execRank0 (s : State) : Host.Outcome State Fault Refusal :=
  runCommand .rank0 s (resultOf s ((rankQuery s).map (fun ones => s.op0 - ones)))

end Sys2Proof.Machine
end

