-- ==== Sys2Proof/Machine/Select.lean ====
section
/-! DEFINITION. The select sparse/dense lookup mux (`43_select.md`): parameters, groups, the count tree
and its descent, SELECT1 and SELECT0. -/

namespace Sys2Proof.Machine

/-- `lg = max(1, bitlen(n))` (R95). -/
def selLg (n : Nat) : Nat := max 1 (bitlen n)

/-- The effective group size `P` (R95). -/
def selP (cfg : ParamRegs) (n : Nat) : Nat := configured cfg.selP (selLg n ^ 2)

/-- The effective threshold `dense_max` (R95). -/
def selDmax (cfg : ParamRegs) (n : Nat) : Nat := configured cfg.selDmax (selLg n ^ 4)

/-- The effective branching factor (R95). -/
def selBranch (cfg : ParamRegs) (n : Nat) : Nat := configured cfg.selBranch (max 2 (icbrt (selLg n)))

/-- The effective leaf width `small_len` (R95). -/
def selLeaf (hw : Params) (cfg : ParamRegs) : Nat := configured cfg.selLeaf hw.lutS

/-- The legality of R95. -/
abbrev selectLegal (lutS branch leaf : Nat) : Prop := 2 ≤ branch ∧ 1 ≤ leaf ∧ leaf ≤ lutS

/-- `Q_b` (R96): the ascending positions in `[0, n)` that hold `b`. -/
def occurrences (m : Memory) (b : Bool) (n : Nat) : List Nat :=
  (List.range n).filter (fun p => streamBit m p == b)

/-- The occurrences of group `g` (R96). -/
def groupPositions (q : List Nat) (P g : Nat) : List Nat := (q.drop (g * P)).take P

/-- The leaf counts of a dense group (R99): leaf `j` covers
`[START + j*small_len, min(START + (j+1)*small_len, LAST + 1))`. -/
def leafCounts (m : Memory) (b : Bool) (start last leaf : Nat) : List Nat :=
  (List.range (ceilDiv (last - start + 1) leaf)).map
    (fun j => popRange m b (start + j * leaf) (min (start + (j + 1) * leaf) (last + 1)))

/-- The next level up (R100): sums of `branch` consecutive entries, the last parent perhaps partial. -/
def parentCounts (branch : Nat) (lvl : List Nat) : List Nat :=
  (List.range (ceilDiv lvl.length branch)).map (fun j => ((lvl.drop (j * branch)).take branch).sum)

/-- The loop of R100: levels are put in front of `below` until one has at most `P` entries. A level's
length is fuel enough, since `branch ≥ 2` shrinks every level of two or more entries. -/
def levelsAbove (branch P : Nat) : Nat → List Nat → List (List Nat) → List (List Nat)
  | 0, lvl, below => lvl :: below
  | fuel + 1, lvl, below =>
    if lvl.length > P then levelsAbove branch P fuel (parentCounts branch lvl) (lvl :: below)
    else lvl :: below

/-- `LEVELS_b[g]` (R100), top level first. -/
def countLevels (branch P : Nat) (leaves : List Nat) : List (List Nat) :=
  levelsAbove branch P leaves.length leaves []

/-- A directory record from a group's occurrences (R96 to R100). The choice is R97's (C2): sparse when
`LAST - START + 1 > dense_max`. -/
def groupRecord (m : Memory) (b : Bool) (P dmax branch leaf : Nat) (positions : List Nat) : Group :=
  let start := positions.headD 0
  let last := positions.getLastD 0
  { start := start
    last := last
    cnt := positions.length
    store :=
      if last - start + 1 > dmax then .sparse positions
      else .dense (countLevels branch P (leafCounts m b start last leaf)) }

/-- `NG_b = ceil_div(POP_b, P)` (R96). -/
def groupCount (pop P : Nat) : Nat := ceilDiv pop P

/-- `DIR_b` after BUILD (R96 to R100). -/
def selectDir (m : Memory) (b : Bool) (n P dmax branch leaf : Nat) : List Group :=
  let q := occurrences m b n
  (List.range (groupCount q.length P)).map
    (fun g => groupRecord m b P dmax branch leaf (groupPositions q P g))

/-- `DIR_b` of the state. -/
def Index.dir (x : Index) : Bool → List Group
  | true => x.dir1
  | false => x.dir0

/-- `POP_b` of the state (R33, R35). -/
def Index.pop (x : Index) : Bool → Word
  | true => x.pop1
  | false => x.pop0

/-- A `WINDOW` call of the descent, with the internal fault of R80 and I4 where it has no result. -/
def windowCall (c : List Nat) (r : Nat) : Eval (Nat × Nat) :=
  match window c r with
  | some x => .ok x
  | none => .error (.internal .windowUndefined)

/-- The descent loop of R102 from window `[lo, hi)` of the first level given: the leaf and what is left
of the residual. -/
def descend (branch : Nat) : List (List Nat) → Nat → Nat → Nat → Eval (Nat × Nat)
  | [], _, _, _ => .error (.internal .indexEntryAbsent)
  | lvl :: below, lo, hi, r => do
    let (c, before) ← windowCall ((lvl.drop lo).take (hi - lo)) r
    let c := lo + c
    let r := r - before
    match below with
    | [] => .ok (c, r)
    | next :: _ => descend branch below (c * branch) (min ((c + 1) * branch) next.length) r

/-- `LEAF(b, START, c, r)` (R103): the leaf's raw bits, complemented for `b = 0`, through
`SELECT_TABLE`. -/
def leafPosition (s : State) (b : Bool) (start c r : Nat) : Eval Nat := do
  let leaf := s.index.eff.selLeaf.toNat
  let x := start + c * leaf
  let pattern ← extract s.array x (x + leaf) (!b)
  let q ← entry (selectTable? s.hw.lutS pattern r)
  return x + q

/-- `SELECT_GROUP(b, g, r)` (R102): the mux between the sparse and the dense path. -/
def selectGroup (s : State) (b : Bool) (g r : Nat) : Eval Nat := do
  let d ← entry (s.index.dir b)[g]?
  match d.store with
  | .sparse positions => entry positions[r]?
  | .dense levels => do
    let (c, r) ← descend s.index.eff.selBranch.toNat levels 0 (levels.headD []).length r
    leafPosition s b d.start c r

/-- `SELECT_b(i)` (R104). -/
def selectLookup (s : State) (b : Bool) (i : Nat) : Eval Nat :=
  selectGroup s b (i / s.index.eff.selP.toNat) (i % s.index.eff.selP.toNat)

/-- The checks of SELECT1 and SELECT0 (R105, R106), then the lookup. -/
def selectQuery (s : State) (b : Bool) : Eval Nat := do
  failIf (s.status.phase ≠ .built) .notBuilt
  failIf (s.op0 ≥ (s.index.pop b).toNat) .selectIndex
  selectLookup s b s.op0

/-- SELECT1 (R105). -/
def execSelect1 (s : State) : Host.Outcome State Fault Refusal :=
  runCommand .select1 s (resultOf s (selectQuery s true))

/-- SELECT0 (R106). -/
def execSelect0 (s : State) : Host.Outcome State Fault Refusal :=
  runCommand .select0 s (resultOf s (selectQuery s false))

end Sys2Proof.Machine
end

