-- ==== Sys2Proof/Machine/Control.lean ====
section
/-! DEFINITION. The facade and port-control commands (`44_facade_control.md` R112 to R115). -/

namespace Sys2Proof.Machine

/-- Whether BUILD accepts the effective parameters (R86, R95). -/
abbrev buildLegal (hw : Params) (cfg : ParamRegs) (n : Nat) : Prop :=
  rankLegal hw.lutS (rankS hw cfg n) (rankL hw cfg n) ∧
    selectLegal hw.lutS (selBranch cfg n) (selLeaf hw cfg)

/-- The `EFF_*` registers that BUILD writes (R85, R95). -/
def effectiveRegs (hw : Params) (cfg : ParamRegs) (n : Nat) : ParamRegs where
  rankS := BitVec.ofNat 64 (rankS hw cfg n)
  rankL := BitVec.ofNat 64 (rankL hw cfg n)
  selP := BitVec.ofNat 64 (selP cfg n)
  selDmax := BitVec.ofNat 64 (selDmax cfg n)
  selBranch := BitVec.ofNat 64 (selBranch cfg n)
  selLeaf := BitVec.ofNat 64 (selLeaf hw cfg)

/-- Everything BUILD writes but `PHASE`, over the stored bits `B[0, n)` (R112, R87, R96 to R101). -/
def builtIndex (hw : Params) (cfg : ParamRegs) (m : Memory) (n : Nat) : Index where
  eff := effectiveRegs hw cfg n
  pop1 := BitVec.ofNat 64 (occurrences m true n).length
  pop0 := BitVec.ofNat 64 (occurrences m false n).length
  ngroups1 := BitVec.ofNat 64 (groupCount (occurrences m true n).length (selP cfg n))
  ngroups0 := BitVec.ofNat 64 (groupCount (occurrences m false n).length (selP cfg n))
  large := largeCounts m n (rankL hw cfg n)
  small := smallCounts m n (rankS hw cfg n) (rankL hw cfg n)
  dir1 := selectDir m true n (selP cfg n) (selDmax cfg n) (selBranch cfg n) (selLeaf hw cfg)
  dir0 := selectDir m false n (selP cfg n) (selDmax cfg n) (selBranch cfg n) (selLeaf hw cfg)

/-- R112: the checks in order, then every write of the build in one step. -/
def buildEffect (s : State) : Eval State := do
  failIf (s.status.phase = .built) .frozen
  failIf (s.array.unit ≠ 1) .buildUnit
  let n := s.array.len.toNat
  failIf (¬ buildLegal s.hw s.cfg n) .badConfig
  return (s.setIndex (builtIndex s.hw s.cfg s.array.mem n)).setPhase .built

/-- BUILD (R112). -/
def execBuild (s : State) : Host.Outcome State Fault Refusal := runCommand .build s (buildEffect s)

/-- NOP (R113): no effect, in every phase. -/
def execNop (s : State) : Host.Outcome State Fault Refusal := .next s

/-- R114: the register's value, or `REG_ACCESS` for a reserved number. -/
def getregEffect (s : State) : Eval State :=
  match regOfNumber s.op0 with
  | some r => .ok (s.setResult (regValue s r))
  | none => .error (.raise .regAccess)

/-- GETREG (R114), which phase FAULTED does not ignore (R67). -/
def execGetreg (s : State) : Host.Outcome State Fault Refusal := conclude .getreg s (getregEffect s)

/-- R115: the phase check, then the register number, then the write. -/
def setregEffect (s : State) : Eval State := do
  failIf (s.status.phase = .built) .frozen
  match (regOfNumber s.op0).bind (cfgWrite s.cfg s.port.arg1) with
  | some c => return s.setCfg c
  | none => .error (.raise .regAccess)

/-- SETREG (R115). -/
def execSetreg (s : State) : Host.Outcome State Fault Refusal := runCommand .setreg s (setregEffect s)

end Sys2Proof.Machine
end

