-- ==== Sys2Proof/Machine/Dispatch.lean ====
section
/-! DEFINITION. One arm per command of `30_encoding.md` R62. -/

namespace Sys2Proof.Machine

def exec (i : Instr) (s : State) : Host.Outcome State Fault Refusal :=
  match i with
  | .nop => Sys2Proof.Machine.execNop s
  | .new => Sys2Proof.Machine.execNew s
  | .push => Sys2Proof.Machine.execPush s
  | .len => Sys2Proof.Machine.execLen s
  | .get => Sys2Proof.Machine.execGet s
  | .range => Sys2Proof.Machine.execRange s
  | .rangen => Sys2Proof.Machine.execRangen s
  | .build => Sys2Proof.Machine.execBuild s
  | .rank1 => Sys2Proof.Machine.execRank1 s
  | .rank0 => Sys2Proof.Machine.execRank0 s
  | .select1 => Sys2Proof.Machine.execSelect1 s
  | .select0 => Sys2Proof.Machine.execSelect0 s
  | .getreg => Sys2Proof.Machine.execGetreg s
  | .setreg => Sys2Proof.Machine.execSetreg s
  | .lutr => Sys2Proof.Machine.execLutr s
  | .luts => Sys2Proof.Machine.execLuts s

end Sys2Proof.Machine
end

