-- ==== Sys2Proof/Machine/HostPort.lean ====
section
/-! DEFINITION. The command port: the host-bus map (`20_memory.md` R48), the dispatch of a command word
(`30_encoding.md` R67), and what each thing that reaches the port does. -/

namespace Sys2Proof.Machine

/-- The eight bus registers, in offset order (R48). -/
def busRegs : List BusReg :=
  [.cmd, .arg0, .arg1, .result, .status, .reserved28, .reserved30, .reserved38]

/-- The offset of a bus register from `BASE` (R48). -/
def busOffset : BusReg → Nat
  | .cmd => 0x00
  | .arg0 => 0x08
  | .arg1 => 0x10
  | .result => 0x18
  | .status => 0x20
  | .reserved28 => 0x28
  | .reserved30 => 0x30
  | .reserved38 => 0x38

/-- The bus address of a register (R48). -/
def busAddress (r : BusReg) : Nat := Config.base + busOffset r

/-- The register a 64-bit access at a bus address reaches; none outside the window or off its
alignment (R49). -/
def busRegAt (a : Nat) : Option BusReg := busRegs.find? (fun r => Config.base + busOffset r == a)

/-- What a host read of a bus register returns (R48). -/
def busValue (s : State) : BusReg → Word
  | .cmd => 0
  | .arg0 => s.port.arg0
  | .arg1 => s.port.arg1
  | .result => s.port.result
  | .status => s.status.word
  | .reserved28 | .reserved30 | .reserved38 => 0

/-- The engine on a command word (R67): while FAULTED an illegal word is ignored, otherwise it raises
`ILLEGAL_CMD`; a legal word runs its command, whose meaning applies step 1 itself (log 9). -/
def commandWrite (c : CmdWord) (s : State) : Host.Outcome State Fault Refusal :=
  match decode c with
  | .ok i => exec i s
  | .error _ => if s.status.phase = .faulted then .next s else .next (raiseFault .illegalCmd c s)

/-- A host write (R48): `CMD` executes the low 32 bits, `ARG0` and `ARG1` store, others are ignored. -/
def busWrite (r : BusReg) (v : Word) (s : State) : Host.Outcome State Fault Refusal :=
  match r with
  | .cmd => commandWrite (v.setWidth 32) s
  | .arg0 => .next (s.setArg0 v)
  | .arg1 => .next (s.setArg1 v)
  | .result | .status | .reserved28 | .reserved30 | .reserved38 => .next s

/-- What reaches the port, applied to the state it finds. -/
def applyEvent (e : HostEvent) (s : State) : Host.Outcome State Fault Refusal :=
  match e with
  | .write r v => busWrite r v s
  | .read r => .next (s.setBusRead (busValue s r))
  | .reset => .next (resetState s)

/-- The oldest event that has not arrived yet is taken and applied (R51); with none the block waits and
keeps all state (R137, R147; log 7). -/
def arrive (s : State) : Host.Outcome State Fault Refusal :=
  match s.pending with
  | [] => .next s
  | e :: rest => applyEvent e (s.setPending rest)

end Sys2Proof.Machine
end

