-- ==== Sys2Proof/Machine/Step.lean ====
section
/-! DEFINITION. One step: the next thing that reaches the port, executed whole (`20_memory.md` R51, R55). -/

namespace Sys2Proof.Machine

def step (s : State) : Host.Outcome State Fault Refusal := Sys2Proof.Machine.arrive s

/-- The state in which the next thing to arrive is a host write of the command word `w` to `CMD`. The
block fetches nothing (R21): this stands for the host's write (log 1). -/
def State.withFetchWord (s : State) (nbits w : Nat) : State :=
  s.setPending (.write .cmd (BitVec.ofNat 64 (w % 2 ^ min nbits 32)) :: s.pending)

end Sys2Proof.Machine
end

