-- ==== Sys2Proof/Machine/Assembler.lean ====
section
/-! DEFINITION. The assembler (`30_encoding.md` R68, R69): from written lines to the host-bus writes they
stand for, and a run's initial state. It is the host's tool; no step of the machine calls it. -/

namespace Sys2Proof.Machine

/-! ### From lines to host-bus writes -/

/-- R68: `ARG0 <- a0` if given, then `ARG1 <- a1` if given, then `CMD <- 0x000000OP`. -/
def lineEvents (l : AsmLine) : List HostEvent :=
  (l.a0.toList.map (HostEvent.write .arg0)) ++ (l.a1.toList.map (HostEvent.write .arg1)) ++
    [.write .cmd ((encode l.instr).setWidth 64)]

/-- A line without operands, with one, with two. -/
def line0 (i : Instr) : AsmLine := { instr := i, a0 := none, a1 := none }
def line1 (i : Instr) (a : Word) : AsmLine := { instr := i, a0 := some a, a1 := none }
def line2 (i : Instr) (a b : Word) : AsmLine := { instr := i, a0 := some a, a1 := some b }

/-- A stored bit as a PUSH operand: `true` is 1, `false` is 0 (R116). -/
def bitOperand (b : Bool) : Word := if b then 1 else 0

/-- The expansions of R69. -/
def expand : Pseudo → List AsmLine
  | .construct bits => line1 .new 1 :: (bits.map (fun b => line1 .push (bitOperand b)) ++ [line0 .build])
  | .access i => [line1 .get i]
  | .rank i b => [line1 (if b then .rank1 else .rank0) i]
  | .select i b => [line1 (if b then .select1 else .select0) i]
  | .setcfg name v => [line2 .setreg (BitVec.ofNat 64 (regNumber name)) v]
  | .read name => [line1 .getreg (BitVec.ofNat 64 (regNumber name))]

/-- The commands a line stands for. -/
def sourceLines : SourceLine → List AsmLine
  | .command l => [l]
  | .pseudo p => expand p

/-- A program is a list of lines, one command per line, executed in order (R68). -/
def programEvents (p : List SourceLine) : List HostEvent := (p.flatMap sourceLines).flatMap lineEvents

/-- A host command of a run (R154): an `ARG0`, `ARG1` and `CMD` triple. -/
def tripleEvents (a0 a1 : Word) (c : CmdWord) : List HostEvent :=
  [.write .arg0 a0, .write .arg1 a1, .write .cmd (c.setWidth 64)]

/-! ### From text to lines -/

/-- The mnemonics of R62. -/
def mnemonics : List (String × Instr) :=
  [("NOP", .nop), ("NEW", .new), ("PUSH", .push), ("LEN", .len), ("GET", .get), ("RANGE", .range),
   ("RANGEN", .rangen), ("BUILD", .build), ("RANK1", .rank1), ("RANK0", .rank0), ("SELECT1", .select1),
   ("SELECT0", .select0), ("GETREG", .getreg), ("SETREG", .setreg), ("LUTR", .lutr), ("LUTS", .luts)]

/-- The register names of R37. -/
def registerNames : List (String × RegName) :=
  [("STATUS", .status), ("UNIT", .unit), ("LEN", .len), ("NBITS", .nbits), ("NWORDS", .nwords),
   ("LUT_S_REG", .lutS), ("MAX_WORDS_REG", .maxWords),
   ("CFG_RANK_S", .cfgRankS), ("CFG_RANK_L", .cfgRankL), ("CFG_SEL_P", .cfgSelP),
   ("CFG_SEL_DMAX", .cfgSelDmax), ("CFG_SEL_BRANCH", .cfgSelBranch), ("CFG_SEL_LEAF", .cfgSelLeaf),
   ("EFF_RANK_S", .effRankS), ("EFF_RANK_L", .effRankL), ("EFF_SEL_P", .effSelP),
   ("EFF_SEL_DMAX", .effSelDmax), ("EFF_SEL_BRANCH", .effSelBranch), ("EFF_SEL_LEAF", .effSelLeaf),
   ("POP1", .pop1), ("POP0", .pop0), ("NGROUPS1", .ngroups1), ("NGROUPS0", .ngroups0)]

/-- A token of a line. -/
inductive Token where
  | word (w : List Char)
  | comma
  deriving DecidableEq, Repr

/-- The word read so far, reversed, as a token. -/
def wordToken (cur : List Char) : List Token := if cur = [] then [] else [.word cur.reverse]

/-- Words are separated by blanks and commas; `;` starts a comment (R68). -/
def tokens : List Char → List Char → List Token
  | [], cur => wordToken cur
  | c :: cs, cur =>
    if c = ';' then wordToken cur
    else if c = ' ' ∨ c = '\t' then wordToken cur ++ tokens cs []
    else if c = ',' then wordToken cur ++ .comma :: tokens cs []
    else tokens cs (c :: cur)

/-- The value of a digit in a base, where it is one. -/
def digit (base : Nat) (c : Char) : Option Nat :=
  let v := if '0' ≤ c ∧ c ≤ '9' then some (c.toNat - '0'.toNat)
    else if 'a' ≤ c ∧ c ≤ 'f' then some (c.toNat - 'a'.toNat + 10)
    else if 'A' ≤ c ∧ c ≤ 'F' then some (c.toNat - 'A'.toNat + 10)
    else none
  v.filter (· < base)

/-- The number that digits write after a value already read. -/
def digits (base : Nat) : List Char → Nat → Option Nat
  | [], acc => some acc
  | c :: cs, acc => (digit base c).bind (fun d => digits base cs (acc * base + d))

/-- A numeric operand: decimal or `0x` hexadecimal (R68), and `0b` binary (R6; log 16). -/
def number : List Char → Option Nat
  | [] => none
  | '0' :: 'x' :: c :: cs => digits 16 (c :: cs) 0
  | '0' :: 'b' :: c :: cs => digits 2 (c :: cs) 0
  | c :: cs => digits 10 (c :: cs) 0

/-- An operand that fits a port register (log 16). -/
def operand (w : List Char) : Option Word :=
  (number w).bind (fun n => if n < 2 ^ 64 then some (BitVec.ofNat 64 n) else none)

/-- A bit operand of a pseudo-instruction. -/
def bitValue (w : List Char) : Option Bool :=
  (number w).bind (fun n => if n = 0 then some false else if n = 1 then some true else none)

/-- The row of a table whose name is a given word. -/
def named {α : Type} (table : List (String × α)) (w : List Char) : Option α :=
  (table.find? (fun e => e.1.toList == w)).map (·.2)

/-- The words of a token list with no comma. -/
def plainWords : List Token → Option (List (List Char))
  | [] => some []
  | .word w :: ts => (plainWords ts).map (w :: ·)
  | .comma :: _ => none

/-- The operands written after a mnemonic. -/
def operandLine (i : Instr) : List Token → Option AsmLine
  | [] => some (line0 i)
  | [.word a] => (operand a).map (line1 i)
  | [.word a, .comma, .word b] => (operand a).bind (fun x => (operand b).map (line2 i x))
  | _ => none

/-- A command line, checked by R68's operand counts. -/
def commandLine (i : Instr) (ts : List Token) : Option SourceLine :=
  ((operandLine i ts).filter AsmLine.wellFormed).map .command

/-- A pseudo-instruction line (R69). -/
def pseudoLine (name : List Char) (ts : List Token) : Option Pseudo :=
  if name = "CONSTRUCT".toList then do
    let ws ← plainWords ts
    return .construct (← ws.mapM bitValue)
  else if name = "ACCESS".toList then
    match ts with
    | [.word a] => (operand a).map .access
    | _ => none
  else if name = "RANK".toList then
    match ts with
    | [.word a, .comma, .word b] => do return .rank (← operand a) (← bitValue b)
    | _ => none
  else if name = "SELECT".toList then
    match ts with
    | [.word a, .comma, .word b] => do return .select (← operand a) (← bitValue b)
    | _ => none
  else if name = "SETCFG".toList then
    match ts with
    | [.word a, .comma, .word b] => do return .setcfg (← named registerNames a) (← operand b)
    | _ => none
  else if name = "READ".toList then
    match ts with
    | [.word a] => (named registerNames a).map .read
    | _ => none
  else none

/-- One written line: blank or a comment (no line), a command, or a pseudo-instruction. -/
def parseLine (text : String) : Option (List SourceLine) :=
  match tokens text.toList [] with
  | [] => some []
  | .comma :: _ => none
  | .word w :: ts =>
    match named mnemonics w with
    | some i => (commandLine i ts).map ([·])
    | none => (pseudoLine w ts).map (fun p => [.pseudo p])

/-- A written program, line by line; none where a line is not in the syntax. -/
def assemble (text : List String) : Option (List HostEvent) :=
  (text.mapM parseLine).map (fun ls => programEvents ls.flatten)

/-- The start of a run (R154): the reset state with a program's host-bus writes still to arrive. -/
def runStart (p : List SourceLine) : State := State.reset.setPending (programEvents p)

end Sys2Proof.Machine
end

