-- ==== Sys2Proof/Safety.lean ====
section
/-! DEFINITION. The terms the claims use: raising a fault, the query commands, and the invariant of the
states a run can reach. -/

namespace Sys2Proof

/-- The query commands (`20_memory.md` R56). -/
def Instr.isQuery : Instr → Bool
  | .len | .get | .range | .rangen | .rank1 | .rank0 | .select1 | .select0 | .getreg | .lutr | .luts => true
  | .nop | .new | .push | .build | .setreg => false

/-- The commands whose rules write `RESULT` (`10_state.md` R22). -/
def Instr.writesResult : Instr → Bool := Instr.isQuery

end Sys2Proof

namespace Sys2Proof.Machine

/-- The state in which a command word's fault has been taken (`60_exceptions.md` R126): `STATUS` holds
the code and the word, and everything else is as it was. -/
def State.faultedBy (s : State) (code : FaultCode) (c : CmdWord) : State :=
  { s with status := { phase := .faulted, fault := code, faultCmd := c } }

/-- Running the command takes the fault `code` and has no other effect. -/
def Raises (i : Instr) (s : State) (code : FaultCode) : Prop :=
  exec i s = .next (s.faultedBy code (encode i))

/-- The state with both operands replaced: what the host's writes of `ARG0` and `ARG1` leave (R48). -/
def State.withArgs (s : State) (a0 a1 : Word) : State := (s.setArg0 a0).setArg1 a1

/-- RANK1 or RANK0, SELECT1 or SELECT0, RANGE or RANGEN, by the bit value or the `inv` they stand for. -/
def rankOf (b : Bool) : Instr := if b then .rank1 else .rank0
def selectOf (b : Bool) : Instr := if b then .select1 else .select0
def rangeOf (inv : Bool) : Instr := if inv then .rangen else .range

/-- What holds of every state a run from reset reaches, and what the rules take for granted. -/
structure Inv (s : State) : Prop where
  /-- The hardwired parameters are legal (log 2). -/
  hwLegal : s.hw.wellFormed = true
  /-- `UNIT` holds 0 to 64 (R25). -/
  unitBound : s.array.unit.toNat ≤ 64
  /-- The store is in its canonical form. -/
  memCanonical : s.array.mem.wf
  /-- Every bit at `NBITS` or higher is 0 (R28, R44). -/
  memBeyond : ∀ q, s.array.nbits ≤ q → streamBit s.array.mem q = false
  /-- The stored bits fit the store (R26, R72). -/
  capacity : s.array.nbits ≤ 64 * s.hw.maxWords
  /-- A fault is recorded exactly in phase FAULTED (R23, R24, R126). -/
  faultRecorded : s.status.phase = .faulted ↔ s.status.fault ≠ .noFault
  /-- `FAULT_CMD` is 0 when no command faulted (R23). -/
  noFaultCmd : s.status.fault = .noFault → s.status.faultCmd = 0
  /-- In OPEN no index exists and its registers hold 0 (R24, R31, R35). -/
  openEmpty : s.status.phase = .opened → s.index = Index.empty
  /-- In BUILT the index is the one BUILD makes of the stored bits and the configuration (R112). -/
  builtIndex : s.status.phase = .built →
    s.array.unit = 1 ∧ buildLegal s.hw s.cfg s.array.len.toNat ∧
      s.index = Sys2Proof.Machine.builtIndex s.hw s.cfg s.array.mem s.array.len.toNat

/-- The stop-free steps: a next state follows. -/
def Progresses (s : State) : Prop := ∃ t, step s = .next t

end Sys2Proof.Machine
end

