-- ==== Sys2Proof/Certificates/Slice0/Obligations.lean ====
section
/-! DEFINITION. The statements for the provers, in the order of OBLIGATIONS.json. -/

open Sys2Proof Sys2Proof.Machine

/-! ### Reset and the port -/

/-- R38: every piece of state after reset. The ROM contents are those of R78 and R79, as functions of the
hardwired `LUT_S`. -/
def Obligations.ResetStateHoldsTheResetValues : Prop :=
  let r := State.reset
  r.status.phase = .opened ∧ r.status.fault = .noFault ∧ r.status.faultCmd = 0 ∧ r.status.word = 0 ∧
  r.port.arg0 = 0 ∧ r.port.arg1 = 0 ∧ r.port.result = 0 ∧
  r.array.unit = 1 ∧ r.array.len = 0 ∧ r.array.nbits = 0 ∧ r.array.nwords = 0 ∧
  (∀ k, r.array.mem.word k = 0) ∧
  (∀ p ∈ [r.cfg, r.index.eff], p.rankS = 0 ∧ p.rankL = 0 ∧ p.selP = 0 ∧ p.selDmax = 0 ∧ p.selBranch = 0 ∧ p.selLeaf = 0) ∧
  r.index.pop0 = 0 ∧ r.index.pop1 = 0 ∧ r.index.ngroups0 = 0 ∧ r.index.ngroups1 = 0 ∧
  r.index.large = [] ∧ r.index.small = [] ∧ r.index.dir1 = [] ∧ r.index.dir0 = [] ∧
  (∀ p k, p < 2 ^ r.hw.lutS → k ≤ r.hw.lutS → rankTable? r.hw.lutS p k = some (popcount (p % 2 ^ k))) ∧
  (∀ p k, p < 2 ^ r.hw.lutS → k < r.hw.lutS → selectTable? r.hw.lutS p k = some (selectTable r.hw.lutS p k))

/-- `70_reset_and_hazards.md`, Reset: a reset input, in any phase, gives every piece of the block's state
its reset value and leaves the hardwired parameters. That it also leaves what has not arrived yet and the
last answered read is the model's choice (log 6). -/
def Obligations.ResetInputRestoresEveryPieceOfState : Prop :=
  ∀ (s : State) (rest : List HostEvent), s.pending = .reset :: rest →
    step s = .next { State.reset with hw := s.hw, pending := rest, busRead := s.busRead }

/-- `70_reset_and_hazards.md`, Entry point, and `60_exceptions.md`, Power states: with nothing arriving
the block waits and keeps all state (as a step: log 7). -/
def Obligations.PortWaitsWhenNothingArrives : Prop :=
  ∀ s : State, s.pending = [] → step s = .next s

/-- The step runs the decoded command: `30_encoding.md`, Execution of one command. The command word is the
low 32 bits of the CMD write, and the event is consumed. -/
def Obligations.StepRunsTheDecodedCommand : Prop :=
  ∀ (s : State) (v : Word) (rest : List HostEvent) (i : Instr),
    s.pending = .write .cmd v :: rest → decode (v.setWidth 32) = .ok i →
      step s = exec i { s with pending := rest }

/-- `30_encoding.md`, Execution of one command, step 1: in FAULTED every command word but NOP's and
GETREG's is ignored. -/
def Obligations.FaultedIgnoresAllButNopAndGetreg : Prop :=
  ∀ (s : State) (v : Word) (rest : List HostEvent), s.pending = .write .cmd v :: rest →
    s.status.phase = .faulted → v.setWidth 32 ≠ 0x00000000#32 → v.setWidth 32 ≠ 0x00000020#32 →
      step s = .next { s with pending := rest }

/-- R48: the host-bus register map: addresses, what a read returns, what a write does. -/
def Obligations.HostBusMapReadsAndWrites : Prop :=
  (Config.base % 64 = 0 ∧ busAddress .cmd = Config.base ∧ busAddress .arg0 = Config.base + 0x08 ∧
    busAddress .arg1 = Config.base + 0x10 ∧ busAddress .result = Config.base + 0x18 ∧
    busAddress .status = Config.base + 0x20 ∧ busAddress .reserved28 = Config.base + 0x28 ∧
    busAddress .reserved30 = Config.base + 0x30 ∧ busAddress .reserved38 = Config.base + 0x38 ∧
    ∀ a r, busRegAt a = some r ↔ a = busAddress r) ∧
  (∀ (s : State) (rest : List HostEvent) (r : BusReg) (x : Word),
    (r, x) ∈ [(BusReg.cmd, 0), (.arg0, s.port.arg0), (.arg1, s.port.arg1), (.result, s.port.result),
      (.status, s.status.word), (.reserved28, 0), (.reserved30, 0), (.reserved38, 0)] →
    s.pending = .read r :: rest → step s = .next { s with pending := rest, busRead := x }) ∧
  (∀ (s : State) (rest : List HostEvent) (v : Word),
    (s.pending = .write .cmd v :: rest → step s = commandWrite (v.setWidth 32) { s with pending := rest }) ∧
    (s.pending = .write .arg0 v :: rest → step s = .next { s with pending := rest, port := { s.port with arg0 := v } }) ∧
    (s.pending = .write .arg1 v :: rest → step s = .next { s with pending := rest, port := { s.port with arg1 := v } }) ∧
    (∀ r ∈ [BusReg.result, .status, .reserved28, .reserved30, .reserved38],
      s.pending = .write r v :: rest → step s = .next { s with pending := rest }))

/-- `20_memory.md`, Host bus, side effects: only a CMD write (or a reset) changes the engine's state. -/
def Obligations.OnlyCommandWritesAndResetsChangeTheEngine : Prop :=
  ∀ s : State, (∀ v rest, s.pending ≠ .write .cmd v :: rest) → (∀ rest, s.pending ≠ .reset :: rest) →
    ∃ t, step s = .next t ∧ t.status = s.status ∧ t.array = s.array ∧ t.hw = s.hw ∧ t.cfg = s.cfg ∧
      t.index = s.index ∧ t.port.result = s.port.result ∧ t.pending = s.pending.tail ∧
      (∀ r rest, s.pending = .read r :: rest → t.port = s.port)

/-- `20_memory.md`, Host-bus byte order: lane `k` holds bits [8k+7:8k], and the lanes give the value back. -/
def Obligations.BusLanesAreLittleEndian : Prop :=
  ∀ v : Word, (∀ k < 8, (busLanes v)[k]? = some (BitVec.ofNat 8 (v.toNat / 2 ^ (8 * k)))) ∧
    (busLanes v).length = 8 ∧ natOfLanes (busLanes v) = v.toNat

/-! ### Encoding -/

/-- `30_encoding.md`, Opcode map: which word selects which command, written out, and no other word does. -/
def Obligations.DecodeReadsExactlyTheOpcodeMap : Prop :=
  ∀ (c : CmdWord) (i : Instr), decode c = .ok i ↔
    (c, i) ∈ [(0x00000000#32, Instr.nop), (0x00000001, .new), (0x00000002, .push), (0x00000003, .len),
      (0x00000004, .get), (0x00000005, .range), (0x00000006, .rangen), (0x00000010, .build),
      (0x00000011, .rank1), (0x00000012, .rank0), (0x00000013, .select1), (0x00000014, .select0),
      (0x00000020, .getreg), (0x00000021, .setreg), (0x00000030, .lutr), (0x00000031, .luts)]

/-- Decoding and encoding agree in both directions, on words and on the bus's byte lanes. -/
def Obligations.DecodeAndEncodeAgree : Prop :=
  (∀ (c : CmdWord) (i : Instr), i.wellFormed = true → (decode c = .ok i ↔ c = encode i)) ∧
  (∀ (c : CmdWord) (i : Instr) (rest : List Byte),
    decodeBytes ((busLanes (c.setWidth 64)).take 4 ++ rest) = .ok (i, rest) ↔ c = encode i) ∧
  (∀ (n : Nat) (i : Instr), decodeTableWord 32 n = some i ↔ n % 2 ^ 32 = (encode i).toNat)

/-- A few words, written out bit by bit from the opcode map, and two illegal ones. -/
def Obligations.SampleWordsDecode : Prop :=
  decode 0b00000000000000000000000000000010#32 = .ok .push ∧
  decode 0b00000000000000000000000000010000#32 = .ok .build ∧
  decode 0b00000000000000000000000000010011#32 = .ok .select1 ∧
  decode 0b00000000000000000000000000100001#32 = .ok .setreg ∧
  decode 0b00000000000000000000000000110001#32 = .ok .luts ∧
  decode 0b00000000000000000000000100000001#32 = .error .reservedBits ∧
  decode 0b00000000000000000000000000000111#32 = .error .unassignedOpcode

/-- R64: an illegal command word raises `ILLEGAL_CMD` in OPEN and BUILT and is ignored in FAULTED. -/
def Obligations.IllegalWordsRaiseIllegalCommand : Prop :=
  ∀ (s : State) (v : Word) (rest : List HostEvent) (c : CmdWord), c = v.setWidth 32 →
    s.pending = .write .cmd v :: rest →
    (c.toNat / 2 ^ 8 ≠ 0 ∨ (0x07 ≤ c.toNat % 2 ^ 8 ∧ c.toNat % 2 ^ 8 ≤ 0x0F) ∨
      (0x15 ≤ c.toNat % 2 ^ 8 ∧ c.toNat % 2 ^ 8 ≤ 0x1F) ∨ (0x22 ≤ c.toNat % 2 ^ 8 ∧ c.toNat % 2 ^ 8 ≤ 0x2F) ∨
      0x32 ≤ c.toNat % 2 ^ 8) →
    (s.status.phase ≠ .faulted → step s = .next ({ s with pending := rest }.faultedBy .illegalCmd c)) ∧
    (s.status.phase = .faulted → step s = .next { s with pending := rest })

/-! ### The word store and EXTRACT -/

/-- `20_memory.md`, Bit address space: stream bit `q` is bit `q mod 64` of `WORD[q div 64]`. -/
def Obligations.StreamBitIsABitOfItsWord : Prop :=
  ∀ (m : Memory) (q : Nat), streamBit m q = (m.word (q / 64)).getLsbD (q % 64)

/-- R41, R42: the two-word merge reads the stream bits, and equals the sum of bits. -/
def Obligations.WordMergeReadsTheStreamBits : Prop :=
  ∀ (m : Memory) (p len : Nat), len ≤ 64 →
    memReadMerge m p len = memRead m p len ∧ memRead m p len < 2 ^ len ∧
    ∀ t, (memRead m p len).testBit t = (decide (t < len) && streamBit m (p + t))

/-- `20_memory.md`, Write primitive: `MemWrite` sets exactly the stream bits it names, keeps the store's
canonical form, and leaves every byte outside those bits. -/
def Obligations.MemWriteSetsExactlyItsBits : Prop :=
  ∀ (m : Memory) (p len v : Nat), m.wf → (memWrite m p len v).wf ∧
    (∀ q, streamBit (memWrite m p len v) q = if p ≤ q ∧ q < p + len then v.testBit (q - p) else streamBit m q) ∧
    (∀ a, 8 * a + 8 ≤ p ∨ p + len ≤ 8 * a → (memWrite m p len v).readByte a = m.readByte a)

/-- R70: `EXTRACT`, its three checks in order, and the bits of its result; the raw read is the two-word
merge. -/
def Obligations.ExtractReadsTheClampedRange : Prop :=
  ∀ (a : PackedArray) (start stop : Nat) (inv : Bool),
    (start > stop → extract a start stop inv = .error (.raise .rangeOrder)) ∧
    (start ≤ stop → stop - start > 64 → extract a start stop inv = .error (.raise .rangeWidth)) ∧
    (start ≤ stop → stop - start ≤ 64 → start > min stop a.nbits →
      extract a start stop inv = .error (.raise .rangeOrder)) ∧
    (stop - start ≤ 64 → start ≤ min stop a.nbits → ∀ len, len = min stop a.nbits - start →
      ∃ v, extract a start stop inv = .ok v ∧ v < 2 ^ len ∧
        v = (if inv then mask len - memReadMerge a.mem start len else memReadMerge a.mem start len) ∧
        ∀ t, v.testBit t = (decide (t < len) && (streamBit a.mem (start + t) ^^ inv)))

/-! ### The packed array commands -/

/-- R71: NEW. -/
def Obligations.NewMakesAnEmptyArray : Prop :=
  ∀ s : State, s.status.phase ≠ .faulted →
    (64 < s.port.arg0.toNat → Raises .new s .badWidth) ∧
    (s.port.arg0.toNat ≤ 64 →
      exec .new s = .next { s with
        array := { unit := s.port.arg0.setWidth 7, len := 0, mem := [] },
        index := { eff := { rankS := 0, rankL := 0, selP := 0, selDmax := 0, selBranch := 0, selLeaf := 0 },
                   pop1 := 0, pop0 := 0, ngroups1 := 0, ngroups0 := 0, large := [], small := [], dir1 := [], dir0 := [] },
        status := { s.status with phase := .opened } }) ∧
    (∀ k, Memory.word [] k = 0)

/-- R72: PUSH. On success only `LEN` and the `UNIT` stream bits from `LEN * UNIT` change. -/
def Obligations.PushAppendsOneElement : Prop :=
  ∀ (s : State) (v u l : Nat), s.array.mem.wf →
    v = s.port.arg0.toNat → u = s.array.unit.toNat → l = s.array.len.toNat →
    (s.status.phase = .built → Raises .push s .frozen) ∧
    (s.status.phase = .opened → u < 64 ∧ 2 ^ u ≤ v → Raises .push s .overwide) ∧
    (s.status.phase = .opened → ¬(u < 64 ∧ 2 ^ u ≤ v) → l = 2 ^ 64 - 1 ∨ 64 * s.hw.maxWords < (l + 1) * u →
      Raises .push s .capacity) ∧
    (s.status.phase = .opened → ¬(u < 64 ∧ 2 ^ u ≤ v) → ¬(l = 2 ^ 64 - 1 ∨ 64 * s.hw.maxWords < (l + 1) * u) →
      ∃ m : Memory, exec .push s = .next { s with array := { s.array with len := s.array.len + 1, mem := m } } ∧
        m.wf ∧
        (∀ q, streamBit m q = if l * u ≤ q ∧ q < l * u + u then v.testBit (q - l * u) else streamBit s.array.mem q) ∧
        (∀ a, 8 * a + 8 ≤ l * u ∨ l * u + u ≤ 8 * a → m.readByte a = s.array.mem.readByte a))

/-- `40_bitpacked_array.md`, PUSH and GET: an element pushed is read back, and every earlier element is
read as before. -/
def Obligations.PushedElementsAreReadBack : Prop :=
  ∀ s : State, Inv s → s.status.phase = .opened →
    (s.array.unit.toNat = 64 ∨ s.port.arg0.toNat < 2 ^ s.array.unit.toNat) →
    s.array.len.toNat ≠ 2 ^ 64 - 1 → (s.array.len.toNat + 1) * s.array.unit.toNat ≤ 64 * s.hw.maxWords →
    ∃ t, exec .push s = .next t ∧
      exec .get (t.setArg0 s.array.len) = .next ((t.setArg0 s.array.len).setResult s.port.arg0) ∧
      ∀ i : Word, i.toNat < s.array.len.toNat → ∃ r : Word,
        exec .get (s.setArg0 i) = .next ((s.setArg0 i).setResult r) ∧
        exec .get (t.setArg0 i) = .next ((t.setArg0 i).setResult r)

/-- R73: LEN. -/
def Obligations.LenReadsTheElementCount : Prop :=
  ∀ s : State, s.status.phase ≠ .faulted →
    exec .len s = .next { s with port := { s.port with result := s.array.len } }

/-- R74: GET. `UNIT ≤ 64` is R25. -/
def Obligations.GetReadsOneElement : Prop :=
  ∀ (s : State) (u i : Nat), s.status.phase ≠ .faulted → u = s.array.unit.toNat → i = s.port.arg0.toNat → u ≤ 64 →
    (0 < u ∧ s.array.len.toNat < i → Raises .get s .rangeOrder) ∧
    (¬(0 < u ∧ s.array.len.toNat < i) → ∃ r : Word,
      exec .get s = .next { s with port := { s.port with result := r } } ∧
      ∀ t, r.getLsbD t = (decide (t < u) && decide (i < s.array.len.toNat) && streamBit s.array.mem (i * u + t)))

/-- R75, R76: RANGE (`inv` false) and RANGEN (`inv` true). -/
def Obligations.RangeReadsRawOrComplementedBits : Prop :=
  ∀ (s : State) (inv : Bool) (start stop : Nat), s.status.phase ≠ .faulted →
    start = s.port.arg0.toNat → stop = s.port.arg1.toNat →
    (start > stop → Raises (rangeOf inv) s .rangeOrder) ∧
    (start ≤ stop → stop - start > 64 → Raises (rangeOf inv) s .rangeWidth) ∧
    (start ≤ stop → stop - start ≤ 64 → start > min stop s.array.nbits → Raises (rangeOf inv) s .rangeOrder) ∧
    (stop - start ≤ 64 → start ≤ min stop s.array.nbits → ∃ r : Word,
      exec (rangeOf inv) s = .next { s with port := { s.port with result := r } } ∧
      ∀ t, r.getLsbD t =
        (decide (t < min stop s.array.nbits - start) && (streamBit s.array.mem (start + t) ^^ inv)))

/-! ### The LUT ROM -/

/-- R81: LUTR, with the entry of R78 counted bit by bit. -/
def Obligations.LutrReadsTheRankTable : Prop :=
  ∀ (s : State) (p k : Nat), s.status.phase ≠ .faulted → p = s.port.arg0.toNat → k = s.port.arg1.toNat →
    (2 ^ s.hw.lutS ≤ p ∨ s.hw.lutS < k → Raises .lutr s .lutIndex) ∧
    (p < 2 ^ s.hw.lutS → k ≤ s.hw.lutS → ∃ r : Word,
      exec .lutr s = .next { s with port := { s.port with result := r } } ∧
      r.toNat = (List.range k).countP (fun j => p.testBit j))

/-- R82: LUTS, with the entry of R79: the position of the `(k+1)`-th 1 bit, or the sentinel. -/
def Obligations.LutsReadsTheSelectTable : Prop :=
  ∀ (s : State) (p k : Nat), s.status.phase ≠ .faulted → p = s.port.arg0.toNat → k = s.port.arg1.toNat →
    (2 ^ s.hw.lutS ≤ p ∨ s.hw.lutS ≤ k → Raises .luts s .lutIndex) ∧
    (p < 2 ^ s.hw.lutS → k < s.hw.lutS → ∃ q : Nat,
      exec .luts s = .next { s with port := { s.port with result := BitVec.ofNat 64 q } } ∧
      (k < popcount p → q < s.hw.lutS ∧ p.testBit q = true ∧ (List.range q).countP (fun j => p.testBit j) = k) ∧
      (popcount p ≤ k → q = s.hw.lutS))

/-- R83: the laws of the two tables. -/
def Obligations.RankAndSelectTablesObeyTheirLaws : Prop :=
  ∀ lutS p : Nat, p < 2 ^ lutS →
    (∀ k < lutS, rankTable p (k + 1) - rankTable p k = (if p.testBit k then 1 else 0) ∧
      rankTable p k ≤ rankTable p (k + 1)) ∧
    (∀ k < popcount p, p.testBit (selectTable lutS p k) = true ∧ rankTable p (selectTable lutS p k) = k) ∧
    (∀ k k', k < k' → k' < popcount p → selectTable lutS p k < selectTable lutS p k')

/-- R80: WINDOW gives the least child whose cumulative count passes the residual, and has no result
(an internal fault) when the residual is not below the sum. -/
def Obligations.WindowFindsTheLeastChild : Prop :=
  ∀ (c : List Nat) (r : Nat),
    (r < c.sum → ∃ j, window c r = some (j, (c.take j).sum) ∧ j < c.length ∧ r < (c.take (j + 1)).sum ∧
      ∀ j' < j, (c.take (j' + 1)).sum ≤ r) ∧
    (c.sum ≤ r → window c r = none ∧ windowCall c r = .error (.internal .windowUndefined))

/-! ### BUILD -/

/-- R85, R86, R95, R112: BUILD's checks in order, the effective parameters by their formulas, and which
registers BUILD writes. -/
def Obligations.BuildChecksAndWritesItsParameters : Prop :=
  ∀ (s : State) (n sb lb lg P dm br lf : Nat), n = s.array.len.toNat →
    sb = (if s.cfg.rankS ≠ 0 then s.cfg.rankS.toNat else min s.hw.lutS (max 1 (fl2 n / 2))) →
    lb = (if s.cfg.rankL ≠ 0 then s.cfg.rankL.toNat else (2 * sb) ^ 2) →
    lg = max 1 (bitlen n) →
    P = (if s.cfg.selP ≠ 0 then s.cfg.selP.toNat else lg ^ 2) →
    dm = (if s.cfg.selDmax ≠ 0 then s.cfg.selDmax.toNat else lg ^ 4) →
    br = (if s.cfg.selBranch ≠ 0 then s.cfg.selBranch.toNat else max 2 (icbrt lg)) →
    lf = (if s.cfg.selLeaf ≠ 0 then s.cfg.selLeaf.toNat else s.hw.lutS) →
    (s.status.phase = .built → Raises .build s .frozen) ∧
    (s.status.phase = .opened → s.array.unit ≠ 1 → Raises .build s .buildUnit) ∧
    (s.status.phase = .opened → s.array.unit = 1 →
      ¬(1 ≤ sb ∧ sb ≤ s.hw.lutS ∧ sb ≤ lb ∧ lb % sb = 0 ∧ 2 ≤ br ∧ 1 ≤ lf ∧ lf ≤ s.hw.lutS) →
      Raises .build s .badConfig) ∧
    (s.status.phase = .opened → s.array.unit = 1 →
      (1 ≤ sb ∧ sb ≤ s.hw.lutS ∧ sb ≤ lb ∧ lb % sb = 0 ∧ 2 ≤ br ∧ 1 ≤ lf ∧ lf ≤ s.hw.lutS) →
      ∃ x : Index, exec .build s = .next { s with index := x, status := { s.status with phase := .built } } ∧
        x.eff = { rankS := BitVec.ofNat 64 sb, rankL := BitVec.ofNat 64 lb, selP := BitVec.ofNat 64 P,
                  selDmax := BitVec.ofNat 64 dm, selBranch := BitVec.ofNat 64 br, selLeaf := BitVec.ofNat 64 lf } ∧
        x.pop1 = BitVec.ofNat 64 (popRange s.array.mem true 0 n) ∧
        x.pop0 = BitVec.ofNat 64 (popRange s.array.mem false 0 n) ∧
        x.ngroups1 = BitVec.ofNat 64 (ceilDiv (popRange s.array.mem true 0 n) P) ∧
        x.ngroups0 = BitVec.ofNat 64 (ceilDiv (popRange s.array.mem false 0 n) P))

/-- `42_rank.md`, Legality, and `43_select.md`, Parameters: the default parameters are legal at every
length, so an unconfigured block builds. -/
def Obligations.DefaultParametersAlwaysBuild : Prop :=
  ∀ s : State, Inv s → s.status.phase = .opened → s.array.unit = 1 →
    s.cfg = { rankS := 0, rankL := 0, selP := 0, selDmax := 0, selBranch := 0, selLeaf := 0 } →
    ∃ t, exec .build s = .next t ∧ t.status.phase = .built

/-- R87: the counters BUILD leaves, entry by entry. -/
def Obligations.BuildWritesTheRankCounters : Prop :=
  ∀ (s : State) (n sb lb : Nat), Inv s → s.status.phase = .built → n = s.array.len.toNat →
    sb = s.index.eff.rankS.toNat → lb = s.index.eff.rankL.toNat →
    s.index.large.length = n / lb + 1 ∧ s.index.small.length = n / sb + 1 ∧
    (∀ k ≤ n / lb, s.index.large[k]? = some (popRange s.array.mem true 0 (k * lb))) ∧
    (∀ j ≤ n / sb, s.index.small[j]? = some (popRange s.array.mem true ((j * sb / lb) * lb) (j * sb)))

/-- R88: the scan over chunks, through the ROM, writes exactly the contents of R87, and its reads never
fault. -/
def Obligations.RankScanWritesTheCounters : Prop :=
  ∀ (a : PackedArray) (lutS sb lb : Nat), a.unit = 1 → lutS ≤ 64 →
    1 ≤ sb → sb ≤ lutS → sb ≤ lb → lb % sb = 0 →
    rankScan a lutS a.len.toNat sb lb =
      .ok (largeCounts a.mem a.len.toNat lb, smallCounts a.mem a.len.toNat sb lb)

/-- R96, R97, R98, R99: the directory of each bit value in BUILT: the groups, the sparse/dense choice, the
stored positions and the leaf counts. -/
def Obligations.DirectoryHoldsTheGroups : Prop :=
  ∀ (s : State) (b : Bool) (n P dm lf : Nat) (q : List Nat), Inv s → s.status.phase = .built →
    n = s.array.len.toNat → P = s.index.eff.selP.toNat → dm = s.index.eff.selDmax.toNat →
    lf = s.index.eff.selLeaf.toNat → q = (List.range n).filter (fun p => streamBit s.array.mem p == b) →
    (s.index.pop b).toNat = q.length ∧ (s.index.dir b).length = ceilDiv q.length P ∧
    ∀ g < ceilDiv q.length P, ∃ d, (s.index.dir b)[g]? = some d ∧
      q[g * P]? = some d.start ∧ q[min ((g + 1) * P) q.length - 1]? = some d.last ∧
      d.cnt = min P (q.length - g * P) ∧
      (dm < d.last - d.start + 1 → ∃ pos, d.store = .sparse pos ∧ pos.length = d.cnt ∧
        ∀ r < d.cnt, pos[r]? = q[g * P + r]?) ∧
      (d.last - d.start + 1 ≤ dm → ∃ V leaves, d.store = .dense V ∧ V.getLast? = some leaves ∧
        leaves.length = ceilDiv (d.last - d.start + 1) lf ∧
        (∀ j < leaves.length, leaves[j]? = some (popRange s.array.mem b (d.start + j * lf)
          (min (d.start + (j + 1) * lf) (d.last + 1)))) ∧
        (∀ x ∈ leaves, x ≤ lf) ∧ (∃ x, leaves.head? = some x ∧ 1 ≤ x) ∧ (∃ x, leaves.getLast? = some x ∧ 1 ≤ x))

/-- R100: the count tree: leaves at the bottom, at most `P` entries at the top and more than `P` at every
level below it, each entry the sum of its children, every level with the same total. -/
def Obligations.CountTreeSumsItsLeaves : Prop :=
  ∀ (branch P : Nat) (leaves : List Nat) (V : List (List Nat)), 2 ≤ branch → 1 ≤ P →
    V = countLevels branch P leaves →
    V.getLast? = some leaves ∧ (∃ top, V.head? = some top ∧ top.length ≤ P) ∧
    (∀ lvl ∈ V, lvl.sum = leaves.sum) ∧
    (∀ t lvl below, V[t]? = some lvl → V[t + 1]? = some below →
      P < below.length ∧ lvl.length = ceilDiv below.length branch ∧
      ∀ j < lvl.length, lvl[j]? =
        some ((below.drop (j * branch)).take (min ((j + 1) * branch) below.length - j * branch)).sum)

/-! ### Queries -/

/-- R92: RANK1 and RANK0 count the 1 bits and the 0 bits below `i`, for every stored sequence and every
legal parameter set. -/
def Obligations.RankCountsTheBitsBelow : Prop :=
  ∀ (s : State) (i : Nat), Inv s → s.status.phase = .built → i = s.port.arg0.toNat → i ≤ s.array.len.toNat →
    exec .rank1 s =
      .next { s with port := { s.port with result := BitVec.ofNat 64 (popRange s.array.mem true 0 i) } } ∧
    exec .rank0 s =
      .next { s with port := { s.port with result := BitVec.ofNat 64 (popRange s.array.mem false 0 i) } } ∧
    popRange s.array.mem false 0 i = i - popRange s.array.mem true 0 i ∧ popRange s.array.mem true 0 i ≤ i

/-- R90, R91: RANK1 adds the two counters and the ROM entry of the chunk, RANK0 subtracts that from `i`,
and their checks come first. -/
def Obligations.RankAddsCountersAndTableEntry : Prop :=
  ∀ (s : State) (i n sb lb : Nat), Inv s → i = s.port.arg0.toNat → n = s.array.len.toNat →
    sb = s.index.eff.rankS.toNat → lb = s.index.eff.rankL.toNat →
    (s.status.phase = .opened → Raises .rank1 s .notBuilt ∧ Raises .rank0 s .notBuilt) ∧
    (s.status.phase = .built → n < i → Raises .rank1 s .rankIndex ∧ Raises .rank0 s .rankIndex) ∧
    (s.status.phase = .built → i ≤ n → ∃ large small pattern,
      s.index.large[i / lb]? = some large ∧ s.index.small[i / sb]? = some small ∧
      pattern = memRead s.array.mem (i / sb * sb) (min (i / sb * sb + sb) n - i / sb * sb) ∧
      exec .rank1 s = .next { s with port := { s.port with
        result := BitVec.ofNat 64 (large + small + popcount (pattern % 2 ^ (i % sb))) } } ∧
      exec .rank0 s = .next { s with port := { s.port with
        result := BitVec.ofNat 64 (i - (large + small + popcount (pattern % 2 ^ (i % sb)))) } })

/-- R107: SELECT1 and SELECT0 give the `i`-th occurrence, for every stored sequence and every legal
parameter set. -/
def Obligations.SelectFindsTheOccurrence : Prop :=
  ∀ (s : State) (b : Bool) (i : Nat), Inv s → s.status.phase = .built → i = s.port.arg0.toNat →
    i < ((List.range s.array.len.toNat).filter (fun p => streamBit s.array.mem p == b)).length →
    ∃ q, ((List.range s.array.len.toNat).filter (fun p => streamBit s.array.mem p == b))[i]? = some q ∧
      exec (selectOf b) s = .next { s with port := { s.port with result := BitVec.ofNat 64 q } }

/-- R105, R106: SELECT1 and SELECT0: the phase check, the population check, then the value of `SELECT_b(i)`
(R104), which the mux and the descent always give. -/
def Obligations.SelectChecksThenLooksUp : Prop :=
  ∀ (s : State) (b : Bool) (i : Nat), i = s.port.arg0.toNat →
    (s.status.phase = .opened → Raises (selectOf b) s .notBuilt) ∧
    (s.status.phase = .built → (s.index.pop b).toNat ≤ i → Raises (selectOf b) s .selectIndex) ∧
    (Inv s → s.status.phase = .built → i < (s.index.pop b).toNat →
      ∃ q, selectGroup s b (i / s.index.eff.selP.toNat) (i % s.index.eff.selP.toNat) = .ok q ∧
        exec (selectOf b) s = .next { s with port := { s.port with result := BitVec.ofNat 64 q } })

/-- R118: rank and select are inverse to each other on the positions that hold `b`. -/
def Obligations.RankAndSelectAreInverse : Prop :=
  ∀ (s : State) (b : Bool), Inv s → s.status.phase = .built →
    (s.port.arg0.toNat < s.array.len.toNat → streamBit s.array.mem s.port.arg0.toNat = b →
      ∃ t, exec (rankOf b) s = .next t ∧
        exec (selectOf b) (t.setArg0 t.port.result) = .next ((t.setArg0 t.port.result).setResult s.port.arg0)) ∧
    (s.port.arg0.toNat < (s.index.pop b).toNat →
      ∃ t, exec (selectOf b) s = .next t ∧
        exec (rankOf b) (t.setArg0 t.port.result) = .next ((t.setArg0 t.port.result).setResult s.port.arg0))

/-- R119: BUILD of the empty sequence succeeds; then both ranks at 0 are 0 and every select faults. -/
def Obligations.EmptySequenceBuildsAndRanksToZero : Prop :=
  ∀ s : State, Inv s → s.status.phase = .opened → s.array.unit = 1 → s.array.len = 0 →
    buildLegal s.hw s.cfg 0 →
    ∃ t, exec .build s = .next t ∧ t.status.phase = .built ∧
      ∀ b, exec (rankOf b) (t.setArg0 0) = .next ((t.setArg0 0).setResult 0) ∧
        ∀ a : Word, Raises (selectOf b) (t.setArg0 a) .selectIndex

/-- `20_memory.md`, Read-only sharing: in BUILT a query's outcome does not depend on a query that came
before it, for the operands it runs with. -/
def Obligations.QueriesDoNotInterfere : Prop :=
  ∀ (s t u : State) (i j : Instr) (a0 a1 b0 b1 : Word), i.isQuery = true → j.isQuery = true →
    s.status.phase = .built → exec i (s.withArgs a0 a1) = .next t → t.status.phase = .built →
    exec j (s.withArgs b0 b1) = .next u →
    ∃ u', exec j (t.withArgs b0 b1) = .next u' ∧ u'.status = u.status ∧ u'.array = u.array ∧
      u'.index = u.index ∧ (u.status.phase = .built → u'.port = u.port)

/-! ### Control commands -/

/-- R113: NOP has no effect in any phase. -/
def Obligations.NopChangesNothing : Prop := ∀ s : State, exec .nop s = .next s

/-- R37, R114: GETREG reads each register by its number in every phase; a reserved number raises
`REG_ACCESS`, and changes nothing in FAULTED. -/
def Obligations.GetregReadsEveryRegister : Prop :=
  ∀ (s : State) (regs : List (Word × Word)),
    regs = [(0x00, s.status.word), (0x01, s.array.unit.setWidth 64), (0x02, s.array.len),
      (0x03, BitVec.ofNat 64 (s.array.len.toNat * s.array.unit.toNat)),
      (0x04, BitVec.ofNat 64 ((s.array.len.toNat * s.array.unit.toNat + 63) / 64)),
      (0x05, BitVec.ofNat 64 s.hw.lutS), (0x06, BitVec.ofNat 64 s.hw.maxWords),
      (0x10, s.cfg.rankS), (0x11, s.cfg.rankL), (0x12, s.cfg.selP), (0x13, s.cfg.selDmax),
      (0x14, s.cfg.selBranch), (0x15, s.cfg.selLeaf),
      (0x20, s.index.eff.rankS), (0x21, s.index.eff.rankL), (0x22, s.index.eff.selP),
      (0x23, s.index.eff.selDmax), (0x24, s.index.eff.selBranch), (0x25, s.index.eff.selLeaf),
      (0x30, s.index.pop1), (0x31, s.index.pop0), (0x32, s.index.ngroups1), (0x33, s.index.ngroups0)] →
    (∀ x, (s.port.arg0, x) ∈ regs → exec .getreg s = .next { s with port := { s.port with result := x } }) ∧
    ((∀ x, (s.port.arg0, x) ∉ regs) →
      (s.status.phase ≠ .faulted → Raises .getreg s .regAccess) ∧
      (s.status.phase = .faulted → exec .getreg s = .next s))

/-- R115: SETREG, the phase check first; it writes one configuration register, whatever the value. -/
def Obligations.SetregWritesOneConfigurationRegister : Prop :=
  ∀ (s : State) (v : Word) (regs : List (Word × ParamRegs)), v = s.port.arg1 →
    regs = [(0x10, { s.cfg with rankS := v }), (0x11, { s.cfg with rankL := v }), (0x12, { s.cfg with selP := v }),
      (0x13, { s.cfg with selDmax := v }), (0x14, { s.cfg with selBranch := v }), (0x15, { s.cfg with selLeaf := v })] →
    (s.status.phase = .built → Raises .setreg s .frozen) ∧
    (s.status.phase = .opened → ∀ c, (s.port.arg0, c) ∈ regs → exec .setreg s = .next { s with cfg := c }) ∧
    (s.status.phase = .opened → (∀ c, (s.port.arg0, c) ∉ regs) → Raises .setreg s .regAccess)

/-- `10_state.md`, STATUS: the fields of the register and their codes. -/
def Obligations.StatusWordHoldsItsFields : Prop :=
  ∀ st : Status,
    (∀ p c, (p, c) ∈ [(Phase.opened, 0), (.built, 1), (.faulted, 3)] → st.phase = p → st.word.toNat % 2 ^ 2 = c) ∧
    st.word.toNat / 2 ^ 2 % 2 ^ 6 = 0 ∧
    (∀ f c, (f, c) ∈ [(FaultCode.noFault, 0), (.illegalCmd, 1), (.badWidth, 2), (.overwide, 3), (.capacity, 4),
        (.rangeOrder, 5), (.rangeWidth, 6), (.frozen, 7), (.notBuilt, 8), (.buildUnit, 9), (.badConfig, 10),
        (.rankIndex, 11), (.selectIndex, 12), (.regAccess, 13), (.lutIndex, 14)] →
      st.fault = f → st.word.toNat / 2 ^ 8 % 2 ^ 8 = c) ∧
    st.word.toNat / 2 ^ 16 % 2 ^ 32 = st.faultCmd.toNat ∧ st.word.toNat / 2 ^ 48 = 0

/-! ### Whole-machine rules -/

/-- R126: a command that enters FAULTED changes nothing but `STATUS`, which records a code and the whole
command word; a fault raised while FAULTED changes nothing. -/
def Obligations.FaultsRecordTheCommandAndChangeNothingElse : Prop :=
  (∀ (i : Instr) (s t : State), s.status.phase ≠ .faulted → exec i s = .next t → t.status.phase = .faulted →
    ∃ code, code ≠ .noFault ∧ t = { s with status := { phase := .faulted, fault := code, faultCmd := encode i } }) ∧
  (∀ (s : State) (code : FaultCode) (c : CmdWord), s.status.phase ≠ .faulted →
    raiseFault code c s = { s with status := { phase := .faulted, fault := code, faultCmd := c } }) ∧
  (∀ (s : State) (code : FaultCode) (c : CmdWord), s.status.phase = .faulted → raiseFault code c s = s)

/-- R131: nothing that reaches the port but a reset changes `STATUS` while FAULTED, so the first fault is
kept; a NEW is ignored too; and a reset leaves FAULTED. -/
def Obligations.OnlyResetLeavesFaulted : Prop :=
  (∀ s : State, s.status.phase = .faulted → (∀ rest, s.pending ≠ .reset :: rest) →
    ∃ t, step s = .next t ∧ t.status = s.status ∧ t.array = s.array ∧ t.cfg = s.cfg ∧ t.index = s.index) ∧
  (∀ s : State, s.status.phase = .faulted → exec .new s = .next s) ∧
  (∀ (s : State) (rest : List HostEvent), s.pending = .reset :: rest →
    ∃ t, step s = .next t ∧ t.status.phase = .opened)

/-- `10_state.md`, PHASE: which commands change the phase, and to what. -/
def Obligations.PhaseChangesOnlyByBuildNewAndFaults : Prop :=
  ∀ (i : Instr) (s t : State), exec i s = .next t →
    (s.status.phase = .faulted ∧ t.status.phase = .faulted) ∨
    (s.status.phase ≠ .faulted ∧ (t.status.phase = .faulted ∨ t.status.phase = s.status.phase ∨
      (i = .build ∧ s.status.phase = .opened ∧ t.status.phase = .built) ∨
      (i = .new ∧ t.status.phase = .opened ∧ t.array.len = 0 ∧ t.index = Index.empty)))

/-- `10_state.md`: which commands write which state. The engine never writes `ARG0` and `ARG1`, the
hardwired registers, or anything of the host's side; `RESULT` changes only by a command that has a result
and does not fault; the store only by NEW and PUSH; the configuration only by SETREG; the index only by
BUILD and NEW. -/
def Obligations.OnlyTheNamedCommandsWriteEachState : Prop :=
  ∀ (i : Instr) (s t : State), exec i s = .next t →
    t.port.arg0 = s.port.arg0 ∧ t.port.arg1 = s.port.arg1 ∧ t.hw = s.hw ∧ t.pending = s.pending ∧
    t.busRead = s.busRead ∧
    (i.writesResult = false ∨ t.status ≠ s.status → t.port.result = s.port.result) ∧
    (i ∉ [.new, .push] → t.array = s.array) ∧ (i ≠ .setreg → t.cfg = s.cfg) ∧
    (i ∉ [.build, .new] → t.index = s.index)

/-- `44_facade_control.md`, Delegation: in BUILT the array, the configuration and the index are immutable
under every command but NEW, and NEW leaves the configuration. -/
def Obligations.BuiltStateIsImmutable : Prop :=
  ∀ (i : Instr) (s t : State), s.status.phase = .built → exec i s = .next t →
    t.cfg = s.cfg ∧ (i ≠ .new → t.array = s.array ∧ t.index = s.index) ∧
    (i.isQuery = true → t = { s with port := { s.port with result := t.port.result } } ∨
      t = { s with status := t.status })

/-- The invariant holds at reset. -/
def Obligations.InvariantHoldsAtReset : Prop := Inv State.reset

/-- The invariant is kept by every step, from every state that has it. -/
def Obligations.InvariantIsKeptByEveryStep : Prop :=
  ∀ s t : State, Inv s → step s = .next t → Inv t

/-- From a state with the invariant every step answers a next state: no command ever meets a WINDOW call
without a result, or an index or ROM entry that does not exist. -/
def Obligations.InvariantStatesNeverStop : Prop :=
  ∀ s : State, Inv s → ∃ t, step s = .next t

/-- R69, R68: the host-bus writes each pseudo-instruction and each line expands to. -/
def Obligations.PseudoInstructionsExpandToTheirWrites : Prop :=
  (∀ (i : Instr) (a b : Word),
    lineEvents { instr := i, a0 := none, a1 := none } = [.write .cmd ((encode i).setWidth 64)] ∧
    lineEvents { instr := i, a0 := some a, a1 := none } = [.write .arg0 a, .write .cmd ((encode i).setWidth 64)] ∧
    lineEvents { instr := i, a0 := some a, a1 := some b } =
      [.write .arg0 a, .write .arg1 b, .write .cmd ((encode i).setWidth 64)]) ∧
  (∀ bits : List Bool, programEvents [.pseudo (.construct bits)] =
    [.write .arg0 1, .write .cmd 0x01] ++
      bits.flatMap (fun b => [.write .arg0 (if b then 1 else 0), .write .cmd 0x02]) ++ [.write .cmd 0x10]) ∧
  (∀ i : Word, programEvents [.pseudo (.access i)] = [.write .arg0 i, .write .cmd 0x04] ∧
    programEvents [.pseudo (.rank i true)] = [.write .arg0 i, .write .cmd 0x11] ∧
    programEvents [.pseudo (.rank i false)] = [.write .arg0 i, .write .cmd 0x12] ∧
    programEvents [.pseudo (.select i true)] = [.write .arg0 i, .write .cmd 0x13] ∧
    programEvents [.pseudo (.select i false)] = [.write .arg0 i, .write .cmd 0x14]) ∧
  (∀ (r : RegName) (v : Word),
    programEvents [.pseudo (.setcfg r v)] =
      [.write .arg0 (BitVec.ofNat 64 (regNumber r)), .write .arg1 v, .write .cmd 0x21] ∧
    programEvents [.pseudo (.read r)] = [.write .arg0 (BitVec.ofNat 64 (regNumber r)), .write .cmd 0x20])

/-- `44_facade_control.md`, Construction: from any state with the invariant that is not FAULTED, the
CONSTRUCT sequence of any bits that fit, under a legal configuration, ends in BUILT with exactly those bits
stored, in order. -/
def Obligations.ConstructStoresAndIndexesTheBits : Prop :=
  ∀ (s : State) (bits : List Bool) (rest : List HostEvent), Inv s → s.status.phase ≠ .faulted →
    bits.length ≤ 64 * s.hw.maxWords → buildLegal s.hw s.cfg bits.length →
    s.pending = programEvents [.pseudo (.construct bits)] ++ rest →
    ∃ t : State, Sys2Proof.core.run (programEvents [.pseudo (.construct bits)]).length s = .next t ∧
      t.status.phase = .built ∧ t.status.fault = .noFault ∧ t.array.unit = 1 ∧
      t.array.len.toNat = bits.length ∧ (∀ k, (h : k < bits.length) → streamBit t.array.mem k = bits[k]) ∧
      t.cfg = s.cfg ∧ t.port.result = s.port.result ∧ t.pending = rest ∧ Inv t
end

