-- ==== Sys2Proof/Laws/Memory.lean ====
section
/-! SUPPORT. The word store: a read after a write, the canonical form, and the bits of a read. -/

namespace Sys2Proof.Machine

/-! ### Bytes -/

/-- A byte write changes its address and no other. -/
theorem readByte_writeByte (m : Memory) (hm : m.wf) (a b : Nat) (v : Byte) :
    (m.writeByte a v).readByte b = if b = a then v else m.readByte b := by
  induction m with
  | nil => by_cases hv : v = 0 <;> by_cases h : b = a <;> simp_all [Memory.writeByte, Memory.readByte]
  | cons c m ih =>
    obtain ⟨c, w⟩ := c
    obtain ⟨hp, hz⟩ := hm
    rw [List.pairwise_cons] at hp
    have hwf : Memory.wf m := ⟨hp.2, fun d hd => hz d (List.mem_cons_of_mem _ hd)⟩
    have absent : ∀ x, x ≤ c → Memory.readByte m x = 0 := by
      intro x hx
      have : ∀ l : Memory, (∀ d ∈ l, c < d.1) → l.readByte x = 0 := by
        intro l
        induction l with
        | nil => intro _; rfl
        | cons d l ihl =>
          intro hl
          rw [Memory.readByte, if_neg (by have := hl d (by simp); omega)]
          exact ihl fun e he => hl e (List.mem_cons_of_mem _ he)
      exact this m hp.1
    unfold Memory.writeByte
    split
    · next hlt =>
      split
      · next hv =>
        split
        · next hb =>
          subst hb
          rw [Memory.readByte, if_neg (by omega), absent _ (by omega), hv]
        · rfl
      · simp [Memory.readByte]
    · split
      · next heq =>
        subst heq
        split
        · next hv =>
          split
          · next hb => subst hb; rw [absent _ (Nat.le_refl _), hv]
          · next hb => rw [Memory.readByte, if_neg hb]
        · by_cases hb : b = a <;> simp [Memory.readByte, hb]
      · next hne =>
        rw [Memory.readByte, Memory.readByte, ih hwf]
        by_cases hbc : b = c
        · rw [if_pos hbc, if_pos hbc, if_neg (by omega)]
        · rw [if_neg hbc, if_neg hbc]

/-- A byte write lists no address but its own and those listed before. -/
theorem mem_writeByte (m : Memory) (a : Nat) (v : Byte) (c : Host.Cell) (h : c ∈ m.writeByte a v) :
    c = (a, v) ∨ c ∈ m := by
  induction m with
  | nil => unfold Memory.writeByte at h; split at h <;> simp_all
  | cons d m ih =>
    obtain ⟨d, w⟩ := d
    unfold Memory.writeByte at h
    split at h
    · split at h
      · exact .inr h
      · simpa using h
    · split at h
      · split at h
        · exact .inr (List.mem_cons_of_mem _ h)
        · rcases List.mem_cons.1 h with h | h
          · exact .inl h
          · exact .inr (List.mem_cons_of_mem _ h)
      · rcases List.mem_cons.1 h with h | h
        · exact .inr (h ▸ List.mem_cons_self ..)
        · exact (ih h).imp id (List.mem_cons_of_mem _)

/-- A byte write keeps the canonical form. -/
theorem writeByte_wf (m : Memory) (hm : m.wf) (a : Nat) (v : Byte) : (m.writeByte a v).wf := by
  induction m with
  | nil => unfold Memory.writeByte; split <;> simp_all [Memory.wf]
  | cons c m ih =>
    obtain ⟨c, w⟩ := c
    obtain ⟨hp, hz⟩ := id hm
    rw [List.pairwise_cons] at hp
    have hwf : Memory.wf m := ⟨hp.2, fun d hd => hz d (List.mem_cons_of_mem _ hd)⟩
    have hw : w ≠ 0 := hz _ (List.mem_cons_self ..)
    unfold Memory.writeByte
    split
    · next hlt =>
      split
      · exact hm
      · next hv =>
        refine ⟨List.pairwise_cons.2 ⟨fun d hd => ?_, hm.1⟩, fun d hd => ?_⟩
        · rcases List.mem_cons.1 hd with rfl | hd
          · exact hlt
          · exact Nat.lt_trans hlt (hp.1 d hd)
        · rcases List.mem_cons.1 hd with rfl | hd
          · exact hv
          · exact hz d hd
    · split
      · next heq =>
        subst heq
        split
        · exact hwf
        · next hv =>
          refine ⟨List.pairwise_cons.2 ⟨hp.1, hp.2⟩, fun d hd => ?_⟩
          rcases List.mem_cons.1 hd with rfl | hd
          · exact hv
          · exact hwf.2 d hd
      · refine ⟨List.pairwise_cons.2 ⟨fun d hd => ?_, (ih hwf).1⟩, fun d hd => ?_⟩
        · rcases mem_writeByte m a v d hd with rfl | hd
          · show c < a; omega
          · exact hp.1 d hd
        · rcases List.mem_cons.1 hd with rfl | hd
          · exact hw
          · exact (ih hwf).2 d hd

/-- The store after reset is canonical. -/
theorem reset_mem_wf : State.reset.array.mem.wf := by decide

/-- A listed byte is read; an unlisted one reads 0. -/
theorem readByte_eq_zero_or_mem (m : Memory) (a : Nat) : m.readByte a = 0 ∨ (a, m.readByte a) ∈ m := by
  induction m with
  | nil => exact .inl rfl
  | cons c m ih =>
    obtain ⟨c, w⟩ := c
    unfold Memory.readByte
    split
    · next h => subst h; exact .inr (List.mem_cons_self ..)
    · exact ih.imp id (List.mem_cons_of_mem _)

/-! ### Bits -/

/-- The bits of a byte with one bit replaced. -/
theorem getLsbD_byteWithBit (w : Byte) (k j : Nat) (v : Bool) (hk : k < 8) (hj : j < 8) :
    (byteWithBit w k v).getLsbD j = if j = k then v else w.getLsbD j := by
  have one : ((1 : Byte) <<< k).getLsbD j = decide (j = k) := by
    rw [BitVec.getLsbD_shiftLeft, show (1 : Byte) = 1#8 from rfl, BitVec.getLsbD_one]
    by_cases hjk : j = k
    · subst hjk; simp [hj]
    · by_cases hlt : j < k
      · simp [hlt, hjk]
      · simp [hjk]; omega
  have flag : (if v then (1 : Byte) <<< k else 0).getLsbD j = (v && decide (j = k)) := by
    cases v with
    | false => exact BitVec.getLsbD_zero
    | true => rw [if_pos rfl, one, Bool.true_and]
  unfold byteWithBit
  rw [BitVec.getLsbD_or, BitVec.getLsbD_and, BitVec.getLsbD_not, one, flag]
  by_cases hjk : j = k <;> simp [hjk, hj]

/-- A bit write changes its stream bit and no other. -/
theorem streamBit_setStreamBit (m : Memory) (hm : m.wf) (q p : Nat) (v : Bool) :
    streamBit (setStreamBit m q v) p = if p = q then v else streamBit m p := by
  unfold streamBit setStreamBit
  rw [readByte_writeByte m hm]
  by_cases hb : p / 8 = q / 8
  · rw [if_pos hb, getLsbD_byteWithBit _ _ _ _ (by omega) (by omega)]
    by_cases hpq : p = q
    · rw [if_pos hpq, if_pos (by omega)]
    · rw [if_neg hpq, if_neg (by omega), hb]
  · rw [if_neg hb, if_neg (by omega)]

/-- A bit write keeps the canonical form. -/
theorem setStreamBit_wf (m : Memory) (hm : m.wf) (q : Nat) (v : Bool) : (setStreamBit m q v).wf :=
  writeByte_wf m hm _ _

/-- `MemWrite` keeps the canonical form. -/
theorem memWrite_wf (m : Memory) (hm : m.wf) (p len v : Nat) : (memWrite m p len v).wf := by
  induction len with
  | zero => exact hm
  | succ t ih => exact setStreamBit_wf _ ih _ _

/-- If every listed byte is 0 from stream bit `n` on, every stream bit from `n` on is 0. -/
theorem streamBit_beyond_of_cells (m : Memory) (n : Nat)
    (h : ∀ c ∈ m, ∀ t < 8, n ≤ 8 * c.1 + t → c.2.getLsbD t = false) (q : Nat) (hq : n ≤ q) :
    streamBit m q = false := by
  unfold streamBit
  rcases readByte_eq_zero_or_mem m (q / 8) with h0 | hm
  · rw [h0]; simp
  · exact h _ hm (q % 8) (by omega) (by simpa using by omega)

/-- `MemRead(p, len)` has `len` bits. -/
theorem memRead_lt (m : Memory) (p len : Nat) : memRead m p len < 2 ^ len := by
  induction len with
  | zero => simp [memRead]
  | succ t ih => rw [memRead, Nat.pow_succ]; split <;> omega

end Sys2Proof.Machine
end

