-- ==== Sys2Proof/Laws/State.lean ====
section
/-! SUPPORT. What each named update of State does to each field, one lemma each, and the same for taking
a fault and for reset. -/

namespace Sys2Proof.Machine

section
variable (s : State)

/-! setResult -/
@[simp] theorem State.setResult_port (v : Word) : (s.setResult v).port = { s.port with result := v } := rfl
@[simp] theorem State.setResult_status (v : Word) : (s.setResult v).status = s.status := rfl
@[simp] theorem State.setResult_array (v : Word) : (s.setResult v).array = s.array := rfl
@[simp] theorem State.setResult_hw (v : Word) : (s.setResult v).hw = s.hw := rfl
@[simp] theorem State.setResult_cfg (v : Word) : (s.setResult v).cfg = s.cfg := rfl
@[simp] theorem State.setResult_index (v : Word) : (s.setResult v).index = s.index := rfl
@[simp] theorem State.setResult_pending (v : Word) : (s.setResult v).pending = s.pending := rfl
@[simp] theorem State.setResult_busRead (v : Word) : (s.setResult v).busRead = s.busRead := rfl

/-! setArg0 -/
@[simp] theorem State.setArg0_port (v : Word) : (s.setArg0 v).port = { s.port with arg0 := v } := rfl
@[simp] theorem State.setArg0_status (v : Word) : (s.setArg0 v).status = s.status := rfl
@[simp] theorem State.setArg0_array (v : Word) : (s.setArg0 v).array = s.array := rfl
@[simp] theorem State.setArg0_hw (v : Word) : (s.setArg0 v).hw = s.hw := rfl
@[simp] theorem State.setArg0_cfg (v : Word) : (s.setArg0 v).cfg = s.cfg := rfl
@[simp] theorem State.setArg0_index (v : Word) : (s.setArg0 v).index = s.index := rfl
@[simp] theorem State.setArg0_pending (v : Word) : (s.setArg0 v).pending = s.pending := rfl
@[simp] theorem State.setArg0_busRead (v : Word) : (s.setArg0 v).busRead = s.busRead := rfl

/-! setArg1 -/
@[simp] theorem State.setArg1_port (v : Word) : (s.setArg1 v).port = { s.port with arg1 := v } := rfl
@[simp] theorem State.setArg1_status (v : Word) : (s.setArg1 v).status = s.status := rfl
@[simp] theorem State.setArg1_array (v : Word) : (s.setArg1 v).array = s.array := rfl
@[simp] theorem State.setArg1_hw (v : Word) : (s.setArg1 v).hw = s.hw := rfl
@[simp] theorem State.setArg1_cfg (v : Word) : (s.setArg1 v).cfg = s.cfg := rfl
@[simp] theorem State.setArg1_index (v : Word) : (s.setArg1 v).index = s.index := rfl
@[simp] theorem State.setArg1_pending (v : Word) : (s.setArg1 v).pending = s.pending := rfl
@[simp] theorem State.setArg1_busRead (v : Word) : (s.setArg1 v).busRead = s.busRead := rfl

/-! setPhase -/
@[simp] theorem State.setPhase_port (v : Phase) : (s.setPhase v).port = s.port := rfl
@[simp] theorem State.setPhase_status (v : Phase) : (s.setPhase v).status = { s.status with phase := v } := rfl
@[simp] theorem State.setPhase_array (v : Phase) : (s.setPhase v).array = s.array := rfl
@[simp] theorem State.setPhase_hw (v : Phase) : (s.setPhase v).hw = s.hw := rfl
@[simp] theorem State.setPhase_cfg (v : Phase) : (s.setPhase v).cfg = s.cfg := rfl
@[simp] theorem State.setPhase_index (v : Phase) : (s.setPhase v).index = s.index := rfl
@[simp] theorem State.setPhase_pending (v : Phase) : (s.setPhase v).pending = s.pending := rfl
@[simp] theorem State.setPhase_busRead (v : Phase) : (s.setPhase v).busRead = s.busRead := rfl

/-! setArray -/
@[simp] theorem State.setArray_port (v : PackedArray) : (s.setArray v).port = s.port := rfl
@[simp] theorem State.setArray_status (v : PackedArray) : (s.setArray v).status = s.status := rfl
@[simp] theorem State.setArray_array (v : PackedArray) : (s.setArray v).array = v := rfl
@[simp] theorem State.setArray_hw (v : PackedArray) : (s.setArray v).hw = s.hw := rfl
@[simp] theorem State.setArray_cfg (v : PackedArray) : (s.setArray v).cfg = s.cfg := rfl
@[simp] theorem State.setArray_index (v : PackedArray) : (s.setArray v).index = s.index := rfl
@[simp] theorem State.setArray_pending (v : PackedArray) : (s.setArray v).pending = s.pending := rfl
@[simp] theorem State.setArray_busRead (v : PackedArray) : (s.setArray v).busRead = s.busRead := rfl

/-! setCfg -/
@[simp] theorem State.setCfg_port (v : ParamRegs) : (s.setCfg v).port = s.port := rfl
@[simp] theorem State.setCfg_status (v : ParamRegs) : (s.setCfg v).status = s.status := rfl
@[simp] theorem State.setCfg_array (v : ParamRegs) : (s.setCfg v).array = s.array := rfl
@[simp] theorem State.setCfg_hw (v : ParamRegs) : (s.setCfg v).hw = s.hw := rfl
@[simp] theorem State.setCfg_cfg (v : ParamRegs) : (s.setCfg v).cfg = v := rfl
@[simp] theorem State.setCfg_index (v : ParamRegs) : (s.setCfg v).index = s.index := rfl
@[simp] theorem State.setCfg_pending (v : ParamRegs) : (s.setCfg v).pending = s.pending := rfl
@[simp] theorem State.setCfg_busRead (v : ParamRegs) : (s.setCfg v).busRead = s.busRead := rfl

/-! setIndex -/
@[simp] theorem State.setIndex_port (v : Index) : (s.setIndex v).port = s.port := rfl
@[simp] theorem State.setIndex_status (v : Index) : (s.setIndex v).status = s.status := rfl
@[simp] theorem State.setIndex_array (v : Index) : (s.setIndex v).array = s.array := rfl
@[simp] theorem State.setIndex_hw (v : Index) : (s.setIndex v).hw = s.hw := rfl
@[simp] theorem State.setIndex_cfg (v : Index) : (s.setIndex v).cfg = s.cfg := rfl
@[simp] theorem State.setIndex_index (v : Index) : (s.setIndex v).index = v := rfl
@[simp] theorem State.setIndex_pending (v : Index) : (s.setIndex v).pending = s.pending := rfl
@[simp] theorem State.setIndex_busRead (v : Index) : (s.setIndex v).busRead = s.busRead := rfl

/-! setBusRead -/
@[simp] theorem State.setBusRead_port (v : Word) : (s.setBusRead v).port = s.port := rfl
@[simp] theorem State.setBusRead_status (v : Word) : (s.setBusRead v).status = s.status := rfl
@[simp] theorem State.setBusRead_array (v : Word) : (s.setBusRead v).array = s.array := rfl
@[simp] theorem State.setBusRead_hw (v : Word) : (s.setBusRead v).hw = s.hw := rfl
@[simp] theorem State.setBusRead_cfg (v : Word) : (s.setBusRead v).cfg = s.cfg := rfl
@[simp] theorem State.setBusRead_index (v : Word) : (s.setBusRead v).index = s.index := rfl
@[simp] theorem State.setBusRead_pending (v : Word) : (s.setBusRead v).pending = s.pending := rfl
@[simp] theorem State.setBusRead_busRead (v : Word) : (s.setBusRead v).busRead = v := rfl

/-! setPending -/
@[simp] theorem State.setPending_port (v : List HostEvent) : (s.setPending v).port = s.port := rfl
@[simp] theorem State.setPending_status (v : List HostEvent) : (s.setPending v).status = s.status := rfl
@[simp] theorem State.setPending_array (v : List HostEvent) : (s.setPending v).array = s.array := rfl
@[simp] theorem State.setPending_hw (v : List HostEvent) : (s.setPending v).hw = s.hw := rfl
@[simp] theorem State.setPending_cfg (v : List HostEvent) : (s.setPending v).cfg = s.cfg := rfl
@[simp] theorem State.setPending_index (v : List HostEvent) : (s.setPending v).index = s.index := rfl
@[simp] theorem State.setPending_pending (v : List HostEvent) : (s.setPending v).pending = v := rfl
@[simp] theorem State.setPending_busRead (v : List HostEvent) : (s.setPending v).busRead = s.busRead := rfl

/-! Operands under the host's writes of `ARG0` and `ARG1`. -/
@[simp] theorem State.op0_setArg0 (v : Word) : (s.setArg0 v).op0 = v.toNat := rfl
@[simp] theorem State.op1_setArg0 (v : Word) : (s.setArg0 v).op1 = s.op1 := rfl
@[simp] theorem State.op0_setArg1 (v : Word) : (s.setArg1 v).op0 = s.op0 := rfl
@[simp] theorem State.op1_setArg1 (v : Word) : (s.setArg1 v).op1 = v.toNat := rfl
@[simp] theorem State.op0_setResult (v : Word) : (s.setResult v).op0 = s.op0 := rfl
@[simp] theorem State.op1_setResult (v : Word) : (s.setResult v).op1 = s.op1 := rfl

/-! The state with a fault taken. -/
@[simp] theorem State.faultedBy_port (c : FaultCode) (w : CmdWord) : (s.faultedBy c w).port = s.port := rfl
@[simp] theorem State.faultedBy_status (c : FaultCode) (w : CmdWord) : (s.faultedBy c w).status = { phase := .faulted, fault := c, faultCmd := w } := rfl
@[simp] theorem State.faultedBy_array (c : FaultCode) (w : CmdWord) : (s.faultedBy c w).array = s.array := rfl
@[simp] theorem State.faultedBy_hw (c : FaultCode) (w : CmdWord) : (s.faultedBy c w).hw = s.hw := rfl
@[simp] theorem State.faultedBy_cfg (c : FaultCode) (w : CmdWord) : (s.faultedBy c w).cfg = s.cfg := rfl
@[simp] theorem State.faultedBy_index (c : FaultCode) (w : CmdWord) : (s.faultedBy c w).index = s.index := rfl
@[simp] theorem State.faultedBy_pending (c : FaultCode) (w : CmdWord) : (s.faultedBy c w).pending = s.pending := rfl
@[simp] theorem State.faultedBy_busRead (c : FaultCode) (w : CmdWord) : (s.faultedBy c w).busRead = s.busRead := rfl

/-! Reset. -/
@[simp] theorem resetState_port : (resetState s).port = State.reset.port := rfl
@[simp] theorem resetState_status : (resetState s).status = State.reset.status := rfl
@[simp] theorem resetState_array : (resetState s).array = State.reset.array := rfl
@[simp] theorem resetState_hw : (resetState s).hw = s.hw := rfl
@[simp] theorem resetState_cfg : (resetState s).cfg = State.reset.cfg := rfl
@[simp] theorem resetState_index : (resetState s).index = State.reset.index := rfl
@[simp] theorem resetState_pending : (resetState s).pending = s.pending := rfl
@[simp] theorem resetState_busRead : (resetState s).busRead = s.busRead := rfl

/-- Raising a fault outside FAULTED records it and changes nothing else (R126). -/
theorem raiseFault_of_not_faulted (h : s.status.phase ≠ .faulted) (c : FaultCode) (w : CmdWord) :
    raiseFault c w s = s.faultedBy c w := if_neg h

/-- Raising a fault in FAULTED changes nothing (R126, R131). -/
theorem raiseFault_of_faulted (h : s.status.phase = .faulted) (c : FaultCode) (w : CmdWord) :
    raiseFault c w s = s := if_pos h

end

end Sys2Proof.Machine
end

