-- ==== Sys2Proof/Laws/Ops.lean ====
section
/-! SUPPORT. What the shared operations of Machine/Ops.lean can answer, said once. -/

namespace Sys2Proof.Machine

/-! ### The evaluation of checks -/

@[simp] theorem Eval_ok_bind {α β : Type} (a : α) (f : α → Eval β) : ((Except.ok a : Eval α) >>= f) = f a := rfl
@[simp] theorem Eval_error_bind {α β : Type} (e : Stop) (f : α → Eval β) :
    ((Except.error e : Eval α) >>= f) = .error e := rfl
@[simp] theorem Eval_pure {α : Type} (a : α) : (pure a : Eval α) = .ok a := rfl

/-- A sequence of evaluations that answers: its first part answered. -/
theorem Eval_bind_ok {α β : Type} {x : Eval α} {f : α → Eval β} {b : β} (h : (x >>= f) = .ok b) :
    ∃ a, x = .ok a ∧ f a = .ok b := by
  cases x with
  | ok a => exact ⟨a, rfl, h⟩
  | error e => exact absurd h (by simp)

theorem failIf_pos {p : Prop} [Decidable p] (h : p) (c : FaultCode) : failIf p c = .error (.raise c) := if_pos h
theorem failIf_neg {p : Prop} [Decidable p] (h : ¬ p) (c : FaultCode) : failIf p c = .ok () := if_neg h

@[simp] theorem entry_some {α : Type} (a : α) : entry (some a) = .ok a := rfl
@[simp] theorem entry_none {α : Type} : entry (none : Option α) = .error (.internal .indexEntryAbsent) := rfl

/-! ### Running a command -/

/-- A command that answers a next state made its writes, or raised the fault of a failed check. -/
theorem conclude_next {i : Instr} {s t : State} {x : Eval State} (h : conclude i s x = .next t) :
    x = .ok t ∨ ∃ c, x = .error (.raise c) ∧ t = raiseFault c (encode i) s := by
  match x, h with
  | .ok _, h => left; injection h with h; rw [h]
  | .error (.raise c), h => right; injection h with h; exact ⟨c, rfl, h.symm⟩

/-- A command that phase FAULTED ignores: it was ignored, or it ran outside FAULTED. -/
theorem runCommand_next {i : Instr} {s t : State} {x : Eval State} (h : runCommand i s x = .next t) :
    (s.status.phase = .faulted ∧ t = s) ∨
    (s.status.phase ≠ .faulted ∧ (x = .ok t ∨ ∃ c, x = .error (.raise c) ∧ t = s.faultedBy c (encode i))) := by
  unfold runCommand at h
  split at h
  · next hf => injection h with h; exact .inl ⟨hf, h.symm⟩
  · next hf =>
    refine .inr ⟨hf, (conclude_next h).imp id fun ⟨c, hx, ht⟩ => ⟨c, hx, ?_⟩⟩
    rw [ht, raiseFault_of_not_faulted s hf]

/-- Outside FAULTED a command runs its checks and writes. -/
theorem runCommand_of_not_faulted {s : State} (h : s.status.phase ≠ .faulted) (i : Instr) (x : Eval State) :
    runCommand i s x = conclude i s x := if_neg h

/-- Phase FAULTED ignores the command (R67). -/
theorem runCommand_of_faulted {s : State} (h : s.status.phase = .faulted) (i : Instr) (x : Eval State) :
    runCommand i s x = .next s := if_pos h

@[simp] theorem resultOf_ok (s : State) (n : Nat) : resultOf s (.ok n) = .ok (s.setResult (BitVec.ofNat 64 n)) := rfl
@[simp] theorem resultOf_error (s : State) (e : Stop) : resultOf s (.error e) = .error e := rfl

/-- A command that only writes `RESULT` answered a value. -/
theorem resultOf_eq_ok {s t : State} {x : Eval Nat} (h : resultOf s x = .ok t) :
    ∃ n, x = .ok n ∧ t = s.setResult (BitVec.ofNat 64 n) := by
  match x, h with
  | .ok n, h => injection h with h; exact ⟨n, rfl, h.symm⟩

/-! ### EXTRACT -/

/-- `EXTRACT` in the range its three checks admit (R70). -/
theorem extract_of_le (a : PackedArray) (start stop : Nat) (inv : Bool) (h1 : start ≤ stop)
    (h2 : stop - start ≤ 64) (h3 : start ≤ a.nbits) :
    extract a start stop inv =
      .ok (if inv then mask (min stop a.nbits - start) - memRead a.mem start (min stop a.nbits - start)
        else memRead a.mem start (min stop a.nbits - start)) := by
  unfold extract
  rw [failIf_neg (by omega), Eval_ok_bind, failIf_neg (by omega), Eval_ok_bind]
  simp only []
  rw [failIf_neg (by omega), Eval_ok_bind]
  rfl

/-- `EXTRACT` answers a value below `2^64`, or raises one of its two faults. -/
theorem extract_cases (a : PackedArray) (start stop : Nat) (inv : Bool) :
    (∃ v, extract a start stop inv = .ok v ∧ v < 2 ^ 64) ∨
    extract a start stop inv = .error (.raise .rangeOrder) ∨
    extract a start stop inv = .error (.raise .rangeWidth) := by
  by_cases h1 : start > stop
  · right; left; unfold extract; rw [failIf_pos h1]; rfl
  by_cases h2 : stop - start > 64
  · right; right; unfold extract; rw [failIf_neg h1, Eval_ok_bind, failIf_pos h2]; rfl
  by_cases h3 : start > min stop a.nbits
  · right; left
    unfold extract
    rw [failIf_neg h1, Eval_ok_bind, failIf_neg h2, Eval_ok_bind]
    simp only []
    rw [failIf_pos h3]; rfl
  · left
    refine ⟨_, extract_of_le a start stop inv (by omega) (by omega) (by omega), ?_⟩
    have hl : min stop a.nbits - start ≤ 64 := by omega
    have hp : 2 ^ (min stop a.nbits - start) ≤ 2 ^ 64 := Nat.pow_le_pow_right (by omega) hl
    have := memRead_lt a.mem start (min stop a.nbits - start)
    unfold mask
    split <;> omega

end Sys2Proof.Machine
end

