-- ==== Sys2Proof/Laws/PerInstr.lean ====
section
/-! SUPPORT. Statements about every command, one lemma per constructor of Instr. -/

namespace Sys2Proof.Laws

/-- R60, R62: the command word of a well-formed command has `RSV = 0` and its row's `OP`, and its row is
the first of the opcode map with that `OP`. -/
def EncodingForm.Statement (i : Instr) : Prop :=
  i.wellFormed = true ∧ rsvField (encode i) = 0 ∧ opField (encode i) = i.opcode ∧
    Instr.rows.find? (fun j => j.opcode == i.opcode) = some i

theorem EncodingForm.nop : EncodingForm.Statement .nop := by unfold EncodingForm.Statement; decide
theorem EncodingForm.new : EncodingForm.Statement .new := by unfold EncodingForm.Statement; decide
theorem EncodingForm.push : EncodingForm.Statement .push := by unfold EncodingForm.Statement; decide
theorem EncodingForm.len : EncodingForm.Statement .len := by unfold EncodingForm.Statement; decide
theorem EncodingForm.get : EncodingForm.Statement .get := by unfold EncodingForm.Statement; decide
theorem EncodingForm.range : EncodingForm.Statement .range := by unfold EncodingForm.Statement; decide
theorem EncodingForm.rangen : EncodingForm.Statement .rangen := by unfold EncodingForm.Statement; decide
theorem EncodingForm.build : EncodingForm.Statement .build := by unfold EncodingForm.Statement; decide
theorem EncodingForm.rank1 : EncodingForm.Statement .rank1 := by unfold EncodingForm.Statement; decide
theorem EncodingForm.rank0 : EncodingForm.Statement .rank0 := by unfold EncodingForm.Statement; decide
theorem EncodingForm.select1 : EncodingForm.Statement .select1 := by unfold EncodingForm.Statement; decide
theorem EncodingForm.select0 : EncodingForm.Statement .select0 := by unfold EncodingForm.Statement; decide
theorem EncodingForm.getreg : EncodingForm.Statement .getreg := by unfold EncodingForm.Statement; decide
theorem EncodingForm.setreg : EncodingForm.Statement .setreg := by unfold EncodingForm.Statement; decide
theorem EncodingForm.lutr : EncodingForm.Statement .lutr := by unfold EncodingForm.Statement; decide
theorem EncodingForm.luts : EncodingForm.Statement .luts := by unfold EncodingForm.Statement; decide

end Sys2Proof.Laws
end

