-- ==== Sys2Proof/Tests/Slice0.lean ====
section
/-! SUPPORT. Small tests: ill-formed terms, the encodings, one step of each command against the vectors of
`95_test_vectors.md`, and a witness for the hypotheses of each statement. -/

namespace Sys2Proof.Tests
open Sys2Proof Sys2Proof.Machine

/-! ### Small states -/

/-- The reset state with a packed array of `n` elements of `u` bits, and both operands. -/
def st (u n : Nat) (mem : Memory) (a0 a1 : Nat) : State :=
  (State.reset.setArray { unit := BitVec.ofNat 7 u, len := BitVec.ofNat 64 n, mem := mem }).withArgs
    (BitVec.ofNat 64 a0) (BitVec.ofNat 64 a1)

/-- The array A60 of the vectors: `NEW 60` and two pushes. -/
def a60 (a0 a1 : Nat) : State :=
  st 60 2 [(0, 0xEF), (1, 0xCD), (2, 0xAB), (3, 0x89), (4, 0x67), (5, 0x45), (6, 0x23), (7, 0x11),
    (8, 0x32), (9, 0x54), (10, 0x76), (11, 0x98), (12, 0xBA), (13, 0xDC), (14, 0xFE)] a0 a1

/-- A state with the index BUILD makes, in phase BUILT. -/
def builtFrom (s : State) : State :=
  (s.setIndex (builtIndex s.hw s.cfg s.array.mem s.array.len.toNat)).setPhase .built

/-- The 24-bit fixture V-F1 (`WORD[0] = 0x579434`), built. -/
def f1 (a0 a1 : Nat) : State := builtFrom (st 1 24 [(0, 0x34), (1, 0x94), (2, 0x57)] a0 a1)

/-- The sequence of program P3 (`WORD[0] = 0x8810526F`) with its parameters, before and after BUILD. -/
def p3Open (a0 : Nat) : State :=
  (st 1 32 [(0, 0x6F), (1, 0x52), (2, 0x10), (3, 0x88)] a0 0).setCfg
    { rankS := 4, rankL := 8, selP := 4, selDmax := 8, selBranch := 2, selLeaf := 2 }
def p3 (a0 : Nat) : State := builtFrom (p3Open a0)

/-- The sequence of program P4 with its parameters, built. -/
def p4 (a0 : Nat) : State :=
  builtFrom ((st 1 12 [(0, 0x11), (1, 0x02)] a0 0).setCfg
    { ParamRegs.zero with selP := 3, selDmax := 100, selBranch := 2, selLeaf := 1 })

/-- A faulted state: an illegal word 0x07 was written after reset. -/
def dead (a0 : Nat) : State := ((st 1 0 [] a0 0).faultedBy .illegalCmd 0x07)

/-- `RESULT` and `STATUS` of the next state. -/
def seen (o : Host.Outcome State Fault Refusal) : Option (Word × Word) :=
  match o with
  | .next t => some (t.port.result, t.status.word)
  | _ => none

/-- Whether an outcome is a given next state, as a test that `decide` can run. -/
def nextIs (o : Host.Outcome State Fault Refusal) (t : State) : Bool :=
  match o with
  | .next u => u == t
  | _ => false

theorem eq_next {o : Host.Outcome State Fault Refusal} {t : State} (h : nextIs o t = true) : o = .next t := by
  cases o with
  | next u => exact congrArg _ (beq_iff_eq.1 h)
  | fault f => cases h
  | refused r => cases h

/-! ### Ill-formed terms -/

theorem test_wf_refuses_operand_of_nop : ({ instr := .nop, a0 := some 1, a1 := none } : AsmLine).wellFormed = false := by decide
theorem test_wf_refuses_second_operand_of_get : ({ instr := .get, a0 := some 1, a1 := some 2 } : AsmLine).wellFormed = false := by decide
theorem test_wf_refuses_second_without_first : ({ instr := .range, a0 := none, a1 := some 2 } : AsmLine).wellFormed = false := by decide
theorem test_wf_accepts_range_line : ({ instr := .range, a0 := some 1, a1 := some 2 } : AsmLine).wellFormed = true := by decide
theorem test_wf_refuses_empty_pattern : ({ lutS := 0, maxWords := 1 } : Params).wellFormed = false := by decide
theorem test_wf_refuses_wide_pattern : ({ lutS := 65, maxWords := 1 } : Params).wellFormed = false := by decide
theorem test_wf_refuses_huge_store : ({ lutS := 8, maxWords := 2 ^ 58 } : Params).wellFormed = false := by decide
theorem test_wf_accepts_default_params : Params.default.wellFormed = true := by decide

/-! ### Encodings, written out from the opcode map of R62 -/

theorem test_decode_nop : decode 0b00000000000000000000000000000000 = .ok .nop := by decide
theorem test_decode_new : decode 0b00000000000000000000000000000001 = .ok .new := by decide
theorem test_decode_push : decode 0b00000000000000000000000000000010 = .ok .push := by decide
theorem test_decode_len : decode 0b00000000000000000000000000000011 = .ok .len := by decide
theorem test_decode_get : decode 0b00000000000000000000000000000100 = .ok .get := by decide
theorem test_decode_range : decode 0b00000000000000000000000000000101 = .ok .range := by decide
theorem test_decode_rangen : decode 0b00000000000000000000000000000110 = .ok .rangen := by decide
theorem test_decode_build : decode 0b00000000000000000000000000010000 = .ok .build := by decide
theorem test_decode_rank1 : decode 0b00000000000000000000000000010001 = .ok .rank1 := by decide
theorem test_decode_rank0 : decode 0b00000000000000000000000000010010 = .ok .rank0 := by decide
theorem test_decode_select1 : decode 0b00000000000000000000000000010011 = .ok .select1 := by decide
theorem test_decode_select0 : decode 0b00000000000000000000000000010100 = .ok .select0 := by decide
theorem test_decode_getreg : decode 0b00000000000000000000000000100000 = .ok .getreg := by decide
theorem test_decode_setreg : decode 0b00000000000000000000000000100001 = .ok .setreg := by decide
theorem test_decode_lutr : decode 0b00000000000000000000000000110000 = .ok .lutr := by decide
theorem test_decode_luts : decode 0b00000000000000000000000000110001 = .ok .luts := by decide
theorem test_decode_refuses_rsv : decode 0x00000101 = .error .reservedBits := by decide
theorem test_decode_refuses_unassigned : decode 0x00000032 = .error .unassignedOpcode := by decide
theorem test_decode_bytes_short : decodeBytes [0x02, 0, 0] = .error .shortInput := by decide

/-! ### One step of each command (vectors V-*) -/

theorem test_nop_faulted : seen (exec .nop (dead 0)) = some (0, 0x70103) := by decide
theorem test_new_bad_width : seen (exec .new (st 1 0 [] 65 0)) = some (0, 0x10203) := by decide
theorem test_new_leaves_built : seen (exec .new (f1 60 0)) = some (0, 0) := by decide
theorem test_push_straddles_words :
    exec .push (st 60 1 [(0, 0xEF), (1, 0xCD), (2, 0xAB), (3, 0x89), (4, 0x67), (5, 0x45), (6, 0x23), (7, 0x01)]
      0x0FEDCBA987654321 0) = .next (a60 0x0FEDCBA987654321 0) := eq_next (by decide)
theorem test_push_overwide : seen (exec .push (st 3 0 [] 8 0)) = some (0, 0x20303) := by decide
theorem test_len_counts_elements : seen (exec .len (a60 0 0)) = some (2, 0) := by decide
theorem test_get_merges_words : seen (exec .get (a60 1 0)) = some (0x0FEDCBA987654321, 0) := by decide
theorem test_get_past_len : seen (exec .get (a60 3 0)) = some (0, 0x40503) := by decide
theorem test_range_merges_words : seen (exec .range (a60 56 68)) = some (0x211, 0) := by decide
theorem test_range_clamps : seen (exec .range (a60 100 130)) = some (0xFEDCB, 0) := by decide
theorem test_rangen_complements_only_read_bits : seen (exec .rangen (a60 100 130)) = some (0x1234, 0) := by decide
theorem test_build_fixture_index :
    (builtIndex Params.default ParamRegs.zero [(0, 0x34), (1, 0x94), (2, 0x57)] 24).large = [0, 6] ∧
    (builtIndex Params.default ParamRegs.zero [(0, 0x34), (1, 0x94), (2, 0x57)] 24).dir1 =
      [{ start := 2, last := 22, cnt := 11, store := .dense [[3, 5, 3]] }] := by decide
theorem test_build_p3_groups :
    (p3 0).index.small = [0, 4, 0, 1, 0, 0, 0, 1, 0] ∧
    (p3 0).index.dir1[1]? = some { start := 5, last := 12, cnt := 4, store := .dense [[2, 0, 1, 1]] } ∧
    (p3 0).index.dir1[2]? = some { start := 14, last := 31, cnt := 4, store := .sparse [14, 20, 27, 31] } := by decide
theorem test_rank1_law_not_source_literal : seen (exec .rank1 (f1 24 0)) = some (11, 1) := by decide
theorem test_rank0_configured : seen (exec .rank0 (p3 13)) = some (5, 1) := by decide
theorem test_select1_zero_count_leaf : seen (exec .select1 (p3 7)) = some (12, 1) := by decide
theorem test_select1_three_levels : seen (exec .select1 (p4 2)) = some (9, 1) := by decide
theorem test_select0_tail_is_not_zero_bits : seen (exec .select0 (f1 12 0)) = some (23, 1) := by decide
theorem test_select0_partial_parent : seen (exec .select0 (p4 8)) = some (11, 1) := by decide
theorem test_getreg_reserved_in_faulted : seen (exec .getreg (dead 0x99)) = some (0, 0x70103) := by decide
theorem test_getreg_max_words : seen (exec .getreg (st 1 0 [] 0x06 0)) = some (0x100000, 0) := by decide
theorem test_setreg_frozen_before_access : seen (exec .setreg (f1 0x02 1)) = some (0, 0x210703) := by decide
theorem test_setreg_selects_register :
    exec .setreg (st 1 0 [] 0x12 4) = .next ((st 1 0 [] 0x12 4).setCfg { ParamRegs.zero with selP := 4 }) :=
  eq_next (by decide)
theorem test_lutr_counts_low_bits : seen (exec .lutr (st 1 0 [] 0b10110100 5)) = some (2, 0) := by decide
theorem test_lutr_missing_row : seen (exec .lutr (st 1 0 [] 256 0)) = some (0, 0x300E03) := by decide
theorem test_luts_last_one : seen (exec .luts (st 1 0 [] 0b10110100 3)) = some (7, 0) := by decide
theorem test_luts_sentinel : seen (exec .luts (st 1 0 [] 0b10110100 4)) = some (8, 0) := by decide

/-! ### The port and the assembler -/

theorem test_illegal_word_records_itself :
    seen (step (State.reset.setPending [.write .cmd 0x100])) = some (0, 0x1000103) := by decide
theorem test_fetch_word_runs_first : seen (step (State.reset.withFetchWord 32 0x07)) = some (0, 0x70103) := by decide
theorem test_window_skips_zero_counts : window [1, 0, 1] 1 = some (2, 1) ∧ window [0, 2] 0 = some (1, 0) := by decide
theorem test_parameters_at_default_capacity :
    selBranch ParamRegs.zero (2 ^ 26) = 3 ∧ rankS Params.default ParamRegs.zero 65535 = 7 ∧
    selP ParamRegs.zero 1000 = 100 := by decide
theorem test_assemble_program :
    assemble ["NEW 60 ; width", "RANGE 56, 0x44", "CONSTRUCT 0 1", "SETCFG CFG_SEL_P, 4"] =
      some [.write .arg0 60, .write .cmd 1, .write .arg0 56, .write .arg1 68, .write .cmd 5,
        .write .arg0 1, .write .cmd 1, .write .arg0 0, .write .cmd 2, .write .arg0 1, .write .cmd 2,
        .write .cmd 0x10, .write .arg0 0x12, .write .arg1 4, .write .cmd 0x21] := by decide
theorem test_assemble_refuses_extra_operand : assemble ["NOP 5"] = none := by decide

/-! ### Witnesses: the invariant -/

/-- Reset memory and registers meet the invariant's premises in a built state: the fixture. -/
theorem test_witness_inv_built : Inv (f1 5 0) where
  hwLegal := by decide
  unitBound := by decide
  memCanonical := by decide
  memBeyond := streamBit_beyond_of_cells _ _ (by decide)
  capacity := by decide
  faultRecorded := by decide
  noFaultCmd := by decide
  openEmpty := by intro h; cases h
  builtIndex := fun _ => ⟨rfl, by decide, rfl⟩

/-- The configured sequence of P3, built: dense and sparse groups. -/
theorem test_witness_inv_configured : Inv (p3 7) where
  hwLegal := by decide
  unitBound := by decide
  memCanonical := by decide
  memBeyond := streamBit_beyond_of_cells _ _ (by decide)
  capacity := by decide
  faultRecorded := by decide
  noFaultCmd := by decide
  openEmpty := by intro h; cases h
  builtIndex := fun _ => ⟨rfl, by decide, rfl⟩

/-- An open state with stored elements. -/
theorem test_witness_inv_open : Inv (a60 5 0) where
  hwLegal := by decide
  unitBound := by decide
  memCanonical := by decide
  memBeyond := streamBit_beyond_of_cells _ _ (by decide)
  capacity := by decide
  faultRecorded := by decide
  noFaultCmd := by decide
  openEmpty := fun _ => rfl
  builtIndex := by intro h; cases h

/-- An open, empty one-bit array with an event sequence still to arrive. -/
def waiting (l : List HostEvent) : State := (st 1 0 [] 0 0).setPending l
theorem test_witness_inv_waiting (l : List HostEvent) : Inv (waiting l) where
  hwLegal := by show Params.default.wellFormed = true; decide
  unitBound := by show (1 : BitVec 7).toNat ≤ 64; decide
  memCanonical := by show Memory.wf []; decide
  memBeyond := fun q _ => by show streamBit [] q = false; simp [streamBit, Memory.readByte]
  capacity := by show (0 : Nat) * 1 ≤ 64 * 2 ^ 20; decide
  faultRecorded := by show (Phase.opened = .faulted) ↔ (FaultCode.noFault ≠ .noFault); decide
  noFaultCmd := fun _ => rfl
  openEmpty := fun _ => rfl
  builtIndex := by intro h; cases h

/-- A faulted state of the invariant. -/
theorem test_witness_inv_faulted : Inv (dead 3) where
  hwLegal := by decide
  unitBound := by decide
  memCanonical := by decide
  memBeyond := fun q _ => by show streamBit [] q = false; simp [streamBit, Memory.readByte]
  capacity := by decide
  faultRecorded := by decide
  noFaultCmd := by decide
  openEmpty := by intro h; cases h
  builtIndex := by intro h; cases h

/-! ### Witnesses: the hypotheses of each statement, clause by clause -/

theorem test_hyp_ResetInputRestoresEveryPieceOfState : ((dead 0).setPending [.reset]).pending = .reset :: [] := rfl
theorem test_hyp_PortWaitsWhenNothingArrives : (f1 0 0).pending = [] := rfl
theorem test_hyp_StepRunsTheDecodedCommand :
    (waiting [.write .cmd 0x2]).pending = .write .cmd 0x2 :: [] ∧ decode ((0x2 : Word).setWidth 32) = .ok .push := by decide
theorem test_hyp_FaultedIgnoresAllButNopAndGetreg :
    ((dead 0).setPending [.write .cmd 0x21]).pending = .write .cmd 0x21 :: [] ∧
    ((dead 0).setPending [.write .cmd 0x21]).status.phase = .faulted ∧
    (0x21 : Word).setWidth 32 ≠ 0x00000000#32 ∧ (0x21 : Word).setWidth 32 ≠ 0x00000020#32 := by decide
theorem test_hyp_HostBusMapReadsAndWrites :
    (BusReg.status, (dead 0).status.word) ∈ [(BusReg.cmd, 0), (.arg0, (dead 0).port.arg0), (.arg1, (dead 0).port.arg1),
      (.result, (dead 0).port.result), (.status, (dead 0).status.word), (.reserved28, 0), (.reserved30, 0), (.reserved38, 0)] ∧
    ((dead 0).setPending [.read .status]).pending = .read .status :: [] ∧
    ((dead 0).setPending [.write .cmd 1]).pending = .write .cmd 1 :: [] ∧
    ((dead 0).setPending [.write .arg0 1]).pending = .write .arg0 1 :: [] ∧
    ((dead 0).setPending [.write .arg1 1]).pending = .write .arg1 1 :: [] ∧
    ((dead 0).setPending [.write .reserved38 1]).pending = .write .reserved38 1 :: [] ∧
    BusReg.reserved38 ∈ [BusReg.result, .status, .reserved28, .reserved30, .reserved38] := by decide
theorem test_hyp_OnlyCommandWritesAndResetsChangeTheEngine :
    (∀ v rest, (waiting [.read .result]).pending ≠ .write .cmd v :: rest) ∧
    (∀ rest, (waiting [.read .result]).pending ≠ .reset :: rest) ∧
    (waiting [.read .result]).pending = .read .result :: [] := by
  refine ⟨fun v rest h => ?_, fun rest h => ?_, rfl⟩ <;> simp [waiting] at h
theorem test_hyp_DecodeAndEncodeAgree : Instr.luts.wellFormed = true := by decide
theorem test_hyp_IllegalWordsRaiseIllegalCommand :
    (waiting [.write .cmd 0x100]).pending = .write .cmd 0x100 :: [] ∧
    ((0x100 : Word).setWidth 32).toNat / 2 ^ 8 ≠ 0 ∧
    (0x07 ≤ ((0x07 : Word).setWidth 32).toNat % 2 ^ 8 ∧ ((0x0F : Word).setWidth 32).toNat % 2 ^ 8 ≤ 0x0F) ∧
    (0x15 ≤ ((0x15 : Word).setWidth 32).toNat % 2 ^ 8 ∧ ((0x1F : Word).setWidth 32).toNat % 2 ^ 8 ≤ 0x1F) ∧
    (0x22 ≤ ((0x22 : Word).setWidth 32).toNat % 2 ^ 8 ∧ ((0x2F : Word).setWidth 32).toNat % 2 ^ 8 ≤ 0x2F) ∧
    0x32 ≤ ((0x32 : Word).setWidth 32).toNat % 2 ^ 8 ∧
    (waiting []).status.phase ≠ .faulted ∧ (dead 0).status.phase = .faulted := by decide
theorem test_hyp_WordMergeReadsTheStreamBits : memReadMerge (a60 0 0).array.mem 60 60 = 0x0FEDCBA987654321 ∧ 60 ≤ 64 := by decide
theorem test_hyp_MemWriteSetsExactlyItsBits :
    (a60 0 0).array.mem.wf ∧ (8 * 6 + 8 ≤ 60 ∨ 60 + 60 ≤ 8 * 6) ∧ (8 * 15 + 8 ≤ 60 ∨ 60 + 60 ≤ 8 * 15) := by decide
theorem test_hyp_ExtractReadsTheClampedRange :
    2 > 1 ∧ (0 ≤ 65 ∧ 65 - 0 > 64) ∧ (121 ≤ 130 ∧ 130 - 121 ≤ 64 ∧ 121 > min 130 (a60 0 0).array.nbits) ∧
    (184 - 120 ≤ 64 ∧ 120 ≤ min 184 (a60 0 0).array.nbits) := by decide
theorem test_hyp_NewMakesAnEmptyArray :
    (f1 65 0).status.phase ≠ .faulted ∧ 64 < (f1 65 0).port.arg0.toNat ∧
    (f1 64 0).status.phase ≠ .faulted ∧ (f1 64 0).port.arg0.toNat ≤ 64 := by decide
theorem test_hyp_PushAppendsOneElement :
    (st 3 1 [(0, 5)] 8 0).array.mem.wf ∧ (f1 1 0).status.phase = .built ∧
    ((st 3 1 [(0, 5)] 8 0).status.phase = .opened ∧ 3 < 64 ∧ 2 ^ 3 ≤ (st 3 1 [(0, 5)] 8 0).port.arg0.toNat) ∧
    (¬(64 < 64 ∧ 2 ^ 64 ≤ (st 64 (2 ^ 20) [] 6 0).port.arg0.toNat) ∧ 64 * (st 64 (2 ^ 20) [] 6 0).hw.maxWords < (2 ^ 20 + 1) * 64) ∧
    (¬(3 < 64 ∧ 2 ^ 3 ≤ (st 3 1 [(0, 5)] 7 0).port.arg0.toNat) ∧
      ¬((1 : Nat) = 2 ^ 64 - 1 ∨ 64 * (st 3 1 [(0, 5)] 7 0).hw.maxWords < (1 + 1) * 3)) := by decide
theorem test_hyp_PushedElementsAreReadBack :
    Inv (a60 5 0) ∧ (a60 5 0).status.phase = .opened ∧
    ((a60 5 0).array.unit.toNat = 64 ∨ (a60 5 0).port.arg0.toNat < 2 ^ (a60 5 0).array.unit.toNat) ∧
    (a60 5 0).array.len.toNat ≠ 2 ^ 64 - 1 ∧
    ((a60 5 0).array.len.toNat + 1) * (a60 5 0).array.unit.toNat ≤ 64 * (a60 5 0).hw.maxWords ∧
    (1 : Word).toNat < (a60 5 0).array.len.toNat := ⟨test_witness_inv_open, by decide⟩
theorem test_hyp_LenReadsTheElementCount : (f1 0 0).status.phase ≠ .faulted := by decide
theorem test_hyp_GetReadsOneElement :
    (a60 3 0).status.phase ≠ .faulted ∧ (a60 3 0).array.unit.toNat ≤ 64 ∧
    (0 < (a60 3 0).array.unit.toNat ∧ (a60 3 0).array.len.toNat < (a60 3 0).port.arg0.toNat) ∧
    ¬(0 < (a60 2 0).array.unit.toNat ∧ (a60 2 0).array.len.toNat < (a60 2 0).port.arg0.toNat) := by decide
theorem test_hyp_RangeReadsRawOrComplementedBits :
    (a60 2 1).status.phase ≠ .faulted ∧ (a60 2 1).port.arg0.toNat > (a60 2 1).port.arg1.toNat ∧
    (a60 0 65).port.arg1.toNat - (a60 0 65).port.arg0.toNat > 64 ∧
    (a60 121 130).port.arg0.toNat > min (a60 121 130).port.arg1.toNat (a60 121 130).array.nbits ∧
    (a60 120 184).port.arg0.toNat ≤ min (a60 120 184).port.arg1.toNat (a60 120 184).array.nbits := by decide
theorem test_hyp_LutrReadsTheRankTable :
    (f1 256 8).status.phase ≠ .faulted ∧ 2 ^ (f1 256 8).hw.lutS ≤ (f1 256 8).port.arg0.toNat ∧
    (f1 0 9).hw.lutS < (f1 0 9).port.arg1.toNat ∧
    (f1 255 8).port.arg0.toNat < 2 ^ (f1 255 8).hw.lutS ∧ (f1 255 8).port.arg1.toNat ≤ (f1 255 8).hw.lutS := by decide
theorem test_hyp_LutsReadsTheSelectTable :
    (f1 256 7).status.phase ≠ .faulted ∧ 2 ^ (f1 256 7).hw.lutS ≤ (f1 256 7).port.arg0.toNat ∧
    (f1 0 8).hw.lutS ≤ (f1 0 8).port.arg1.toNat ∧
    (f1 255 7).port.arg0.toNat < 2 ^ (f1 255 7).hw.lutS ∧ (f1 255 7).port.arg1.toNat < (f1 255 7).hw.lutS ∧
    7 < popcount 255 ∧ popcount 127 ≤ 7 := by decide
theorem test_hyp_RankAndSelectTablesObeyTheirLaws : 0xB4 < 2 ^ 8 ∧ 7 < 8 ∧ 2 < 3 ∧ 3 < popcount 0xB4 := by decide
theorem test_hyp_WindowFindsTheLeastChild : 10 < [3, 5, 3].sum ∧ [3, 5, 3].sum ≤ 11 := by decide
theorem test_hyp_BuildChecksAndWritesItsParameters :
    (f1 0 0).status.phase = .built ∧ (a60 0 0).status.phase = .opened ∧ (a60 0 0).array.unit ≠ 1 ∧
    ((st 1 0 [] 0 0).setCfg { ParamRegs.zero with selBranch := 1 }).status.phase = .opened ∧
    ¬ (2 ≤ ((st 1 0 [] 0 0).setCfg { ParamRegs.zero with selBranch := 1 }).cfg.selBranch.toNat) ∧
    (p3Open 0).status.phase = .opened ∧ (p3Open 0).array.unit = 1 ∧ buildLegal (p3Open 0).hw (p3Open 0).cfg 32 := by decide
theorem test_hyp_DefaultParametersAlwaysBuild :
    Inv (waiting []) ∧ (waiting []).status.phase = .opened ∧ (waiting []).array.unit = 1 ∧
    (waiting []).cfg = { rankS := 0, rankL := 0, selP := 0, selDmax := 0, selBranch := 0, selLeaf := 0 } :=
  ⟨test_witness_inv_waiting [], by decide⟩
theorem test_hyp_BuildWritesTheRankCounters :
    Inv (p3 7) ∧ (p3 7).status.phase = .built ∧ 4 ≤ 32 / (p3 7).index.eff.rankL.toNat ∧
    8 ≤ 32 / (p3 7).index.eff.rankS.toNat := ⟨test_witness_inv_configured, by decide⟩
theorem test_hyp_RankScanWritesTheCounters :
    (p3 7).array.unit = 1 ∧ 8 ≤ 64 ∧ 1 ≤ 4 ∧ 4 ≤ 8 ∧ 8 % 4 = 0 := by decide
theorem test_hyp_DirectoryHoldsTheGroups :
    Inv (p3 7) ∧ (p3 7).status.phase = .built ∧
    2 < ceilDiv ((List.range 32).filter (fun p => streamBit (p3 7).array.mem p == true)).length (p3 7).index.eff.selP.toNat ∧
    (p3 7).index.eff.selDmax.toNat < 31 - 14 + 1 ∧ 12 - 5 + 1 ≤ (p3 7).index.eff.selDmax.toNat :=
  ⟨test_witness_inv_configured, by decide⟩
theorem test_hyp_CountTreeSumsItsLeaves :
    countLevels 2 3 [1, 0, 0, 0, 1, 0, 0, 0, 0, 1] = [[1, 1, 1], [1, 0, 1, 0, 1], [1, 0, 0, 0, 1, 0, 0, 0, 0, 1]] := by decide
theorem test_hyp_RankCountsTheBitsBelow :
    Inv (f1 5 0) ∧ (f1 5 0).status.phase = .built ∧ (f1 5 0).port.arg0.toNat ≤ (f1 5 0).array.len.toNat :=
  ⟨test_witness_inv_built, by decide⟩
theorem test_hyp_RankAddsCountersAndTableEntry :
    Inv (f1 5 0) ∧ (f1 5 0).status.phase = .built ∧ (f1 5 0).port.arg0.toNat ≤ (f1 5 0).array.len.toNat ∧
    Inv (a60 5 0) ∧ (a60 5 0).status.phase = .opened ∧ (f1 25 0).array.len.toNat < (f1 25 0).port.arg0.toNat :=
  ⟨test_witness_inv_built, by decide, by decide, test_witness_inv_open, by decide⟩
theorem test_hyp_SelectFindsTheOccurrence :
    Inv (p3 7) ∧ (p3 7).status.phase = .built ∧
    (p3 7).port.arg0.toNat < ((List.range (p3 7).array.len.toNat).filter (fun p => streamBit (p3 7).array.mem p == true)).length ∧
    (p3 7).port.arg0.toNat < ((List.range (p3 7).array.len.toNat).filter (fun p => streamBit (p3 7).array.mem p == false)).length :=
  ⟨test_witness_inv_configured, by decide⟩
theorem test_hyp_SelectChecksThenLooksUp :
    (Inv (f1 5 0) ∧ (f1 5 0).status.phase = .built ∧ (f1 5 0).port.arg0.toNat < ((f1 5 0).index.pop false).toNat) ∧
    (a60 0 0).status.phase = .opened ∧ (f1 11 0).status.phase = .built ∧
    ((f1 11 0).index.pop true).toNat ≤ (f1 11 0).port.arg0.toNat ∧
    ((f1 13 0).index.pop false).toNat ≤ (f1 13 0).port.arg0.toNat :=
  ⟨⟨test_witness_inv_built, by decide⟩, by decide⟩
theorem test_hyp_RankAndSelectAreInverse :
    Inv (f1 5 0) ∧ (f1 5 0).status.phase = .built ∧ (f1 5 0).port.arg0.toNat < (f1 5 0).array.len.toNat ∧
    streamBit (f1 5 0).array.mem (f1 5 0).port.arg0.toNat = true ∧
    (f1 5 0).port.arg0.toNat < ((f1 5 0).index.pop true).toNat ∧
    (f1 5 0).port.arg0.toNat < ((f1 5 0).index.pop false).toNat := ⟨test_witness_inv_built, by decide⟩
theorem test_hyp_EmptySequenceBuildsAndRanksToZero :
    Inv (waiting []) ∧ (waiting []).status.phase = .opened ∧ (waiting []).array.unit = 1 ∧ (waiting []).array.len = 0 ∧
    buildLegal (waiting []).hw (waiting []).cfg 0 := ⟨test_witness_inv_waiting [], by decide⟩
theorem test_hyp_QueriesDoNotInterfere :
    Instr.rank1.isQuery = true ∧ Instr.select0.isQuery = true ∧ (f1 0 0).status.phase = .built ∧
    seen (exec .rank1 ((f1 0 0).withArgs 17 0)) = some (7, 1) ∧
    seen (exec .select0 ((f1 0 0).withArgs 12 0)) = some (23, 1) := by decide
theorem test_hyp_GetregReadsEveryRegister :
    (f1 0x33 0).port.arg0 = 0x33 ∧ (f1 0x07 0).port.arg0 = 0x07 ∧ (f1 0x07 0).status.phase ≠ .faulted ∧
    (dead 0x99).status.phase = .faulted := by decide
theorem test_hyp_SetregWritesOneConfigurationRegister :
    (f1 0x10 1).status.phase = .built ∧ (st 1 0 [] 0x15 9).status.phase = .opened ∧
    (st 1 0 [] 0x15 9).port.arg0 = 0x15 ∧ (st 1 0 [] 0x16 9).port.arg0 = 0x16 := by decide
theorem test_hyp_StatusWordHoldsItsFields : (dead 0).status.phase = .faulted ∧ (dead 0).status.fault = .illegalCmd := by decide
theorem test_hyp_FaultsRecordTheCommandAndChangeNothingElse :
    (f1 25 0).status.phase ≠ .faulted ∧
    exec .rank1 (f1 25 0) = .next ((f1 25 0).faultedBy .rankIndex 0x11) ∧ (dead 0).status.phase = .faulted :=
  ⟨by decide, eq_next (by decide), by decide⟩
theorem test_hyp_OnlyResetLeavesFaulted :
    ((dead 0).setPending [.write .cmd 1]).status.phase = .faulted ∧
    (∀ rest, ((dead 0).setPending [.write .cmd 1]).pending ≠ .reset :: rest) ∧
    ((dead 0).setPending [.reset]).pending = .reset :: [] := by
  refine ⟨by decide, fun rest h => ?_, rfl⟩
  simp at h
theorem test_hyp_OnlyTheNamedCommandsWriteEachState :
    exec .len (f1 0 0) = .next ((f1 0 0).setResult 24) ∧ Instr.len ∉ [Instr.new, .push] ∧
    Instr.push.writesResult = false := ⟨eq_next (by decide), by decide⟩
theorem test_hyp_BuiltStateIsImmutable :
    (f1 0 0).status.phase = .built ∧ exec .len (f1 0 0) = .next ((f1 0 0).setResult 24) ∧ Instr.len.isQuery = true :=
  ⟨by decide, eq_next (by decide), by decide⟩
theorem test_hyp_InvariantIsKeptByEveryStep :
    Inv (waiting [.write .arg0 5]) ∧
    step (waiting [.write .arg0 5]) = .next ((waiting []).setArg0 5) := ⟨test_witness_inv_waiting _, eq_next (by decide)⟩
theorem test_hyp_InvariantStatesNeverStop : Inv (p3 7) := test_witness_inv_configured
theorem test_hyp_ConstructStoresAndIndexesTheBits :
    Inv (waiting (programEvents [.pseudo (.construct [true, false])] ++ [])) ∧
    (waiting []).status.phase ≠ .faulted ∧ [true, false].length ≤ 64 * (waiting []).hw.maxWords ∧
    buildLegal (waiting []).hw (waiting []).cfg [true, false].length := ⟨test_witness_inv_waiting _, by decide⟩

end Sys2Proof.Tests
end

section
/-! The reset state, `70_reset_and_hazards.md` R38: the empty word store, the parameter registers and the
rows of the two ROM tables. -/

namespace Sys2Proof.Machine

/-- No cell is listed, so no byte has a value other than the default. -/
@[simp] theorem Memory.readByte_nil (a : Nat) : Memory.readByte [] a = 0 := rfl

@[simp] theorem Memory.word_nil (k : Nat) : Memory.word [] k = 0 := by
  simp [Memory.word]

/-- The ROM holds the row of every pattern and every bit count up to `LUT_S` (R78). -/
theorem rankTable?_eq_some {lutS p k : Nat} (hp : p < 2 ^ lutS) (hk : k ≤ lutS) :
    rankTable? lutS p k = some (rankTable p k) := if_pos ⟨hp, hk⟩

/-- The ROM holds the row of every pattern and every occurrence below `LUT_S` (R79). -/
theorem selectTable?_eq_some {lutS p k : Nat} (hp : p < 2 ^ lutS) (hk : k < lutS) :
    selectTable? lutS p k = some (selectTable lutS p k) := if_pos ⟨hp, hk⟩

theorem reset_word (k : Nat) : State.reset.array.mem.word k = 0 := Memory.word_nil k

/-- Both parameter sets of the reset state, `CFG_*` and `EFF_*`, are the all-zero one. -/
theorem eq_zero_of_mem_reset_params {p : ParamRegs} (hp : p ∈ [State.reset.cfg, State.reset.index.eff]) :
    p = ParamRegs.zero := by
  have hcfg : State.reset.cfg = ParamRegs.zero := rfl
  have heff : State.reset.index.eff = ParamRegs.zero := rfl
  simpa [hcfg, heff] using hp

/-- Settles O1. The registers and the empty lists are read off the reset state; the words, the parameter
registers and the ROM rows, which are claims for every index, come from the lemmas above. -/
theorem resetStateHoldsTheResetValues : Obligations.ResetStateHoldsTheResetValues := by
  unfold Obligations.ResetStateHoldsTheResetValues
  refine ⟨rfl, rfl, rfl, rfl, rfl, rfl, rfl, rfl, rfl, rfl, rfl, reset_word, ?params,
    rfl, rfl, rfl, rfl, rfl, rfl, rfl, rfl, fun p k => rankTable?_eq_some, fun p k => selectTable?_eq_some⟩
  case params =>
    intro p hp
    obtain rfl := eq_zero_of_mem_reset_params hp
    exact ⟨rfl, rfl, rfl, rfl, rfl, rfl⟩

end Sys2Proof.Machine
end

section
/-! The word store and the host bus, `20_memory.md`: the bits of a word, of `MemRead` and of the two-word
merge (R41, R42), and the register map with what a read and a write of it do (R48). -/

namespace Sys2Proof.Machine

/-! ### The bits of a word and of a read -/

/-- R26, R40: bit `i` of `WORD[k]` is stream bit `64k + i`. The split is by the byte that holds the bit. -/
theorem getLsbD_word (m : Memory) (k : Nat) {i : Nat} (hi : i < 64) :
    (m.word k).getLsbD i = streamBit m (64 * k + i) := by
  have haddr : (64 * k + i) / 8 = 8 * k + i / 8 := by omega
  have hbit : (64 * k + i) % 8 = i % 8 := by omega
  have hdecomp : i = 8 * (i / 8) + i % 8 := by omega
  have hbyte : i / 8 < 8 := by omega
  have hlt : i % 8 < 8 := by omega
  rw [streamBit, haddr, hbit]
  generalize i % 8 = r at hdecomp hlt ⊢
  generalize i / 8 = j at hdecomp hbyte ⊢
  subst hdecomp
  simp only [Memory.word, BitVec.getLsbD_append]
  interval_cases j <;> grind

theorem testBit_word (m : Memory) (k i : Nat) :
    (m.word k).toNat.testBit i = (decide (i < 64) && streamBit m (64 * k + i)) := by
  rw [BitVec.testBit_toNat]
  by_cases hi : i < 64
  · rw [getLsbD_word m k hi, decide_eq_true hi, Bool.true_and]
  · simp [hi, BitVec.getLsbD_of_ge _ _ (by omega : 64 ≤ i)]

/-- R41: the new term of the sum is the top bit, above the bits already summed. -/
theorem memRead_succ (m : Memory) (p n : Nat) :
    memRead m p (n + 1) = 2 ^ n * (streamBit m (p + n)).toNat + memRead m p n := by
  rw [memRead, Nat.add_comm]
  cases streamBit m (p + n) <;> simp

/-- R41: bit `t` of `MemRead(p, len)` is stream bit `p + t`. -/
theorem testBit_memRead (m : Memory) (p len t : Nat) :
    (memRead m p len).testBit t = (decide (t < len) && streamBit m (p + t)) := by
  induction len with
  | zero => simp [memRead]
  | succ n ih =>
    rw [memRead_succ, Nat.testBit_two_pow_mul_add _ (memRead_lt m p n), ih]
    by_cases hlt : t < n
    · simp [hlt, Nat.lt_succ_of_lt hlt]
    · rw [if_neg hlt, Nat.testBit_bool_toNat]
      by_cases htop : t = n
      · simp [htop]
      · have hout : ¬ t < n + 1 := by omega
        have hsub : t - n ≠ 0 := by omega
        simp [hout, hsub]

@[simp] theorem testBit_mask (len t : Nat) : (mask len).testBit t = decide (t < len) :=
  Nat.testBit_two_pow_sub_one len t

/-- R42: the first word shifted down by `o` reads the stream from its bit `o` to its end. -/
theorem testBit_word_shiftRight (m : Memory) (w o t : Nat) :
    ((m.word w).toNat >>> o).testBit t = (decide (o + t < 64) && streamBit m (64 * w + (o + t))) := by
  rw [Nat.testBit_shiftRight, testBit_word]

/-- R42: the second word shifted up by `64 - o` continues the stream in the bits of the same 64-bit value
that the first word left 0. -/
theorem testBit_word_shiftLeft (m : Memory) (w t : Nat) {o : Nat} (ho : o < 64) :
    (((m.word (w + 1)).toNat <<< (64 - o)) % 2 ^ 64).testBit t =
      (decide (t < 64 ∧ 64 ≤ o + t) && streamBit m (64 * w + (o + t))) := by
  rw [Nat.testBit_mod_two_pow, Nat.testBit_shiftLeft, testBit_word]
  by_cases ht : t < 64 ∧ 64 ≤ o + t
  · have hpos : 64 * (w + 1) + (t - (64 - o)) = 64 * w + (o + t) := by omega
    have hge : t ≥ 64 - o := by omega
    have hlt : t - (64 - o) < 64 := by omega
    simp [ht, hpos, hge, hlt]
  · have hout : ¬ (t < 64 ∧ t ≥ 64 - o) := by omega
    rw [← Bool.and_assoc, ← Bool.decide_and, decide_eq_false hout, decide_eq_false ht, Bool.false_and,
      Bool.false_and]

/-- R42: bit `t` of the merge is stream bit `p + t`, taken from the first word while `p mod 64 + t` is
below 64 and from the second word from there on. -/
theorem testBit_memReadMerge (m : Memory) (p t : Nat) {len : Nat} (hlen : len ≤ 64) :
    (memReadMerge m p len).testBit t = (decide (t < len) && streamBit m (p + t)) := by
  have hpos : 64 * (p / 64) + (p % 64 + t) = p + t := by omega
  have ho : p % 64 < 64 := Nat.mod_lt p (by decide)
  simp only [memReadMerge, Nat.testBit_and, Nat.testBit_or, testBit_word_shiftRight, testBit_mask, hpos]
  by_cases ht : t < len
  · by_cases hw : p % 64 + t < 64
    · split
      · rw [testBit_word_shiftLeft m (p / 64) t ho, hpos]
        simp [ht, hw]
      · simp [ht, hw]
    · have hcross : 64 < p % 64 + len := by omega
      have hsecond : t < 64 ∧ 64 ≤ p % 64 + t := by omega
      rw [if_pos hcross, testBit_word_shiftLeft m (p / 64) t ho, hpos]
      simp [ht, hw, hsecond]
  · simp [ht]

/-- R42: the merge equals the sum of bits, since no bit tells them apart. -/
theorem memReadMerge_eq_memRead (m : Memory) (p : Nat) {len : Nat} (hlen : len ≤ 64) :
    memReadMerge m p len = memRead m p len :=
  Nat.eq_of_testBit_eq fun t => by rw [testBit_memReadMerge m p t hlen, testBit_memRead]

/-- Settles O14: both the merge and the sum of bits have stream bit `p + t` as their bit `t`. -/
theorem wordMergeReadsTheStreamBits : Obligations.WordMergeReadsTheStreamBits := by
  unfold Obligations.WordMergeReadsTheStreamBits
  exact fun m p len hlen => ⟨memReadMerge_eq_memRead m p hlen, memRead_lt m p len, testBit_memRead m p len⟩

/-! ### The host-bus map -/

/-- R48: no two registers share an offset, since the offset divided by 8 is the place in the map. -/
theorem busOffset_injective : Function.Injective busOffset :=
  Function.LeftInverse.injective (g := fun n => busRegs.getD (n / 8) .cmd) fun r => by cases r <;> rfl

/-- R48: exactly the eight addresses of the map reach a register, each its own. -/
theorem busRegAt_eq_some_iff (a : Nat) (r : BusReg) : busRegAt a = some r ↔ a = busAddress r := by
  unfold busRegAt
  constructor
  · intro h
    have hp := List.find?_some h
    exact (beq_iff_eq.1 hp).symm
  · rintro rfl
    have hself : (fun r' => Config.base + busOffset r' == busAddress r) = (· == r) := by
      funext r'
      simp only [busAddress, Nat.add_left_cancel_iff, beq_eq_beq, busOffset_injective.eq_iff]
    rw [hself]
    cases r <;> rfl

/-- R51: the step takes the oldest event and applies it. -/
theorem step_of_pending {s : State} {e : HostEvent} {rest : List HostEvent} (h : s.pending = e :: rest) :
    step s = applyEvent e (s.setPending rest) := by
  rw [step, arrive, h]

/-- R48: an entry of the read table holds the value that a read of its register returns. -/
theorem busValue_of_mem_readTable {s : State} {r : BusReg} {x : Word}
    (h : (r, x) ∈ busRegs.map fun r => (r, busValue s r)) : busValue s r = x := by
  obtain ⟨r', -, heq⟩ := List.mem_map.1 h
  cases heq
  rfl

/-- Settles O6: the map's addresses are read off `busOffset`, and each access is the event that the step
takes and applies. -/
theorem hostBusMapReadsAndWrites : Obligations.HostBusMapReadsAndWrites := by
  unfold Obligations.HostBusMapReadsAndWrites
  refine ⟨⟨Nat.mul_mod_right 64 _, rfl, rfl, rfl, rfl, rfl, rfl, rfl, rfl, busRegAt_eq_some_iff⟩, ?reads, ?writes⟩
  case reads =>
    intro s rest r x hx hread
    rw [step_of_pending hread, ← busValue_of_mem_readTable hx]
    rfl
  case writes =>
    refine fun s rest v => ⟨step_of_pending, step_of_pending, step_of_pending, fun r hr hwrite => ?ignored⟩
    rw [step_of_pending hwrite]
    fin_cases hr <;> rfl

end Sys2Proof.Machine
end

section
/-! The command encoding, `30_encoding.md`: an illegal command word (R64) and what the port does with it
(R67), and the host-bus writes of lines and pseudo-instructions (R68, R69). -/

namespace Sys2Proof.Machine

/-! ### Illegal command words -/

/-- A word is its `RSV` field above its `OP` field (R60). -/
theorem rsvField_append_opField (c : CmdWord) : rsvField c ++ opField c = c :=
  (BitVec.extractLsb'_append_extractLsb'_eq_extractLsb' (start₁ := 0) (len₁ := 8) (len₂ := 24) rfl).trans
    BitVec.extractLsb'_eq_self

/-- R62: a word that decodes has `RSV = 0` and the `OP` of its row, so it is the encoding of its command. -/
theorem eq_encode_of_decode {c : CmdWord} {i : Instr} (h : decode c = .ok i) : c = encode i := by
  unfold decode at h
  split at h
  case isTrue hrsv => cases h
  case isFalse hrsv =>
    split at h
    next j hfind =>
      cases h
      have hop : i.opcode = opField c := by simpa using List.find?_some hfind
      have hzero : rsvField c = 0#24 := not_not.1 hrsv
      rw [encode, hop, ← hzero, rsvField_append_opField]
    next => cases h

theorem toNat_encode (i : Instr) : (encode i).toNat = i.opcode.toNat :=
  (BitVec.toNat_append 0#24 i.opcode).trans (by simp)

/-- R48, R62: the value written to `CMD` for a command is its `OP`, widened. -/
theorem setWidth_encode (i : Instr) : (encode i).setWidth 64 = i.opcode.setWidth 64 :=
  BitVec.eq_of_toNat_eq (by simp [toNat_encode])

/-- R64: `RSV` is nonzero, or `OP` lies in one of the four unassigned ranges. -/
def IllegalWord (c : CmdWord) : Prop :=
  c.toNat / 2 ^ 8 ≠ 0 ∨ (0x07 ≤ c.toNat % 2 ^ 8 ∧ c.toNat % 2 ^ 8 ≤ 0x0F) ∨
    (0x15 ≤ c.toNat % 2 ^ 8 ∧ c.toNat % 2 ^ 8 ≤ 0x1F) ∨ (0x22 ≤ c.toNat % 2 ^ 8 ∧ c.toNat % 2 ^ 8 ≤ 0x2F) ∨
    0x32 ≤ c.toNat % 2 ^ 8

/-- R62: no command's word is illegal. -/
theorem not_illegalWord_encode (i : Instr) : ¬ IllegalWord (encode i) := by
  rw [IllegalWord, toNat_encode]
  cases i <;> decide

theorem decode_of_illegalWord {c : CmdWord} (hc : IllegalWord c) : ∃ e, decode c = .error e := by
  cases h : decode c with
  | error e => exact ⟨e, rfl⟩
  | ok i => exact absurd (eq_encode_of_decode h ▸ hc) (not_illegalWord_encode i)

/-- R67: the port answers an illegal word by raising `ILLEGAL_CMD`; that FAULTED ignores the word is
already what raising a fault does there (R126). -/
theorem commandWrite_of_illegalWord {c : CmdWord} (hc : IllegalWord c) (s : State) :
    commandWrite c s = .next (raiseFault .illegalCmd c s) := by
  obtain ⟨e, he⟩ := decode_of_illegalWord hc
  rw [commandWrite, he]
  by_cases hf : s.status.phase = .faulted
  · rw [raiseFault_of_faulted s hf]
    exact if_pos hf
  · exact if_neg hf

/-- Settles O12: the port raises `ILLEGAL_CMD` for the word, which takes the fault outside FAULTED and
does nothing in FAULTED. -/
theorem illegalWordsRaiseIllegalCommand : Obligations.IllegalWordsRaiseIllegalCommand := by
  unfold Obligations.IllegalWordsRaiseIllegalCommand
  rintro s v rest c rfl hpending hillegal
  have hstep : step s = .next (raiseFault .illegalCmd (v.setWidth 32) (s.setPending rest)) :=
    (step_of_pending hpending).trans (commandWrite_of_illegalWord hillegal _)
  exact ⟨fun hf => hstep.trans (congrArg _ (raiseFault_of_not_faulted (s.setPending rest) hf _ _)),
    fun hf => hstep.trans (congrArg _ (raiseFault_of_faulted (s.setPending rest) hf _ _))⟩

/-! ### The writes of lines and pseudo-instructions -/

@[simp] theorem lineEvents_line0 (i : Instr) : lineEvents (line0 i) = [.write .cmd ((encode i).setWidth 64)] := rfl

@[simp] theorem lineEvents_line1 (i : Instr) (a : Word) :
    lineEvents (line1 i a) = [.write .arg0 a, .write .cmd ((encode i).setWidth 64)] := rfl

@[simp] theorem lineEvents_line2 (i : Instr) (a b : Word) :
    lineEvents (line2 i a b) = [.write .arg0 a, .write .arg1 b, .write .cmd ((encode i).setWidth 64)] := rfl

/-- R69: a pseudo-instruction stands for the writes of its listed commands, in order, and no other. -/
theorem programEvents_pseudo (p : Pseudo) : programEvents [.pseudo p] = (expand p).flatMap lineEvents := by
  simp [programEvents, sourceLines]

/-- R69, R116: CONSTRUCT makes a new array of width 1, pushes each bit in order and builds. -/
theorem programEvents_construct (bits : List Bool) :
    programEvents [.pseudo (.construct bits)] =
      lineEvents (line1 .new 1) ++ bits.flatMap (fun b => lineEvents (line1 .push (bitOperand b))) ++
        lineEvents (line0 .build) := by
  rw [programEvents_pseudo, expand, List.flatMap_cons, List.flatMap_append, List.flatMap_map,
    List.flatMap_singleton, List.append_assoc]

/-- Settles O52: each pseudo-instruction but CONSTRUCT is one line, CONSTRUCT is one line per bit between
its NEW and its BUILD, and the words of the lines are the opcode map's. -/
theorem pseudoInstructionsExpandToTheirWrites : Obligations.PseudoInstructionsExpandToTheirWrites := by
  unfold Obligations.PseudoInstructionsExpandToTheirWrites
  refine ⟨?lines, ?construct, ?queries, ?registers⟩
  case lines => exact fun i a b => ⟨lineEvents_line0 i, lineEvents_line1 i a, lineEvents_line2 i a b⟩
  case construct =>
    intro bits
    simp [programEvents_construct, setWidth_encode, Instr.opcode, bitOperand]
  case queries =>
    intro i
    simp [programEvents_pseudo, expand, setWidth_encode, Instr.opcode]
  case registers =>
    intro r v
    simp [programEvents_pseudo, expand, setWidth_encode, Instr.opcode]

end Sys2Proof.Machine
end

section
/-! The packed array, `40_bitpacked_array.md`: the bits and bytes of a store write (`20_memory.md` R43),
the clamped range read EXTRACT (R70), and NEW, PUSH, LEN, GET, RANGE and RANGEN (R71 to R76). -/

namespace Sys2Proof.Machine

/-! ### The store write -/

theorem memWrite_succ (m : Memory) (p n v : Nat) :
    memWrite m p (n + 1) v = setStreamBit (memWrite m p n v) (p + n) (v.testBit n) := rfl

theorem readByte_setStreamBit_of_ne (m : Memory) (hm : m.wf) {a q : Nat} (v : Bool) (h : a ≠ q / 8) :
    (setStreamBit m q v).readByte a = m.readByte a := by
  rw [setStreamBit, readByte_writeByte m hm, if_neg h]

/-- R43: the write sets the stream bits it names to the bits of the value and keeps every other. -/
theorem streamBit_memWrite (m : Memory) (hm : m.wf) (p len v q : Nat) :
    streamBit (memWrite m p len v) q = if p ≤ q ∧ q < p + len then v.testBit (q - p) else streamBit m q := by
  induction len with
  | zero => rw [memWrite, if_neg (by omega)]
  | succ n ih =>
    rw [memWrite_succ, streamBit_setStreamBit _ (memWrite_wf m hm p n v), ih]
    by_cases hq : q = p + n
    · subst hq
      simp
    · have hrange : (p ≤ q ∧ q < p + (n + 1)) ↔ (p ≤ q ∧ q < p + n) := by omega
      rw [if_neg hq, if_congr hrange rfl rfl]

/-- R43: a byte that holds none of the stream bits written is kept. -/
theorem readByte_memWrite_of_outside (m : Memory) (hm : m.wf) {a p len : Nat} (v : Nat)
    (h : 8 * a + 8 ≤ p ∨ p + len ≤ 8 * a) : (memWrite m p len v).readByte a = m.readByte a := by
  induction len with
  | zero => rfl
  | succ n ih =>
    rw [memWrite_succ, readByte_setStreamBit_of_ne _ (memWrite_wf m hm p n v) _ (by omega), ih (by omega)]

/-! ### EXTRACT -/

/-- R70: the `len` stream bits from `start` on, complemented within `len` bits when `inv`. -/
def readRange (m : Memory) (start len : Nat) (inv : Bool) : Nat :=
  if inv then mask len - memRead m start len else memRead m start len

theorem testBit_mask_sub {v len : Nat} (h : v < 2 ^ len) (t : Nat) :
    (mask len - v).testBit t = (decide (t < len) && !v.testBit t) := by
  rw [mask, Nat.sub_sub, Nat.add_comm, Nat.testBit_two_pow_sub_succ h]

theorem testBit_readRange (m : Memory) (start len : Nat) (inv : Bool) (t : Nat) :
    (readRange m start len inv).testBit t = (decide (t < len) && (streamBit m (start + t) ^^ inv)) := by
  cases inv with
  | false => simp [readRange, testBit_memRead]
  | true =>
    rw [readRange, if_pos rfl, testBit_mask_sub (memRead_lt m start len), testBit_memRead]
    by_cases ht : t < len <;> simp [ht]

theorem readRange_lt (m : Memory) (start len : Nat) (inv : Bool) : readRange m start len inv < 2 ^ len :=
  Nat.lt_pow_two_of_testBit _ fun t ht => by simp [testBit_readRange, Nat.not_lt.2 ht]

/-- A range of at most 64 bits loses none of them in `RESULT`. -/
theorem getLsbD_ofNat_readRange (m : Memory) (start : Nat) {len : Nat} (hlen : len ≤ 64) (inv : Bool) (t : Nat) :
    (BitVec.ofNat 64 (readRange m start len inv)).getLsbD t =
      (decide (t < len) && (streamBit m (start + t) ^^ inv)) := by
  rw [BitVec.getLsbD_ofNat, testBit_readRange, ← Bool.and_assoc, ← Bool.decide_and,
    decide_eq_decide.2 (by omega : t < 64 ∧ t < len ↔ t < len)]

section
variable {a : PackedArray} {start stop : Nat}

theorem extract_of_gt (h : start > stop) (inv : Bool) :
    extract a start stop inv = .error (.raise .rangeOrder) := by
  rw [extract, failIf_pos h, Eval_error_bind]

theorem extract_of_wide (h : start ≤ stop) (hwide : stop - start > 64) (inv : Bool) :
    extract a start stop inv = .error (.raise .rangeWidth) := by
  rw [extract, failIf_neg (Nat.not_lt.2 h), Eval_ok_bind, failIf_pos hwide, Eval_error_bind]

theorem extract_of_beyond (h : start ≤ stop) (hwidth : stop - start ≤ 64) (hend : start > min stop a.nbits)
    (inv : Bool) : extract a start stop inv = .error (.raise .rangeOrder) := by
  rw [extract, failIf_neg (Nat.not_lt.2 h), Eval_ok_bind, failIf_neg (Nat.not_lt.2 hwidth), Eval_ok_bind]
  exact congrArg (· >>= _) (failIf_pos hend .rangeOrder)

theorem extract_eq_readRange (hwidth : stop - start ≤ 64) (h : start ≤ min stop a.nbits) (inv : Bool) :
    extract a start stop inv = .ok (readRange a.mem start (min stop a.nbits - start) inv) :=
  extract_of_le a start stop inv (by omega) hwidth (by omega)

end

/-- Settles O16. The raw read of the admitted range is the two-word merge (R42), since the range has at
most 64 bits. -/
theorem extractReadsTheClampedRange : Obligations.ExtractReadsTheClampedRange := by
  unfold Obligations.ExtractReadsTheClampedRange
  refine fun a start stop inv => ⟨fun h => extract_of_gt h inv, fun h hw => extract_of_wide h hw inv,
    fun h hw he => extract_of_beyond h hw he inv, ?value⟩
  rintro hwidth h len rfl
  have hlen : min stop a.nbits - start ≤ 64 := by omega
  refine ⟨_, extract_eq_readRange hwidth h inv, readRange_lt _ _ _ _, ?_, testBit_readRange _ _ _ _⟩
  rw [memReadMerge_eq_memRead a.mem start hlen, readRange]

/-! ### Commands outside FAULTED -/

theorem phase_ne_of_opened {s : State} (h : s.status.phase = .opened) :
    s.status.phase ≠ .built ∧ s.status.phase ≠ .faulted := by
  simp [h]

section
variable {s : State} (hf : s.status.phase ≠ .faulted)
include hf

theorem runCommand_of_ok (i : Instr) {x : Eval State} {t : State} (hx : x = .ok t) :
    runCommand i s x = .next t := by
  rw [runCommand_of_not_faulted hf, hx, conclude]

theorem runCommand_of_raise (i : Instr) {x : Eval State} {c : FaultCode} (hx : x = .error (.raise c)) :
    runCommand i s x = .next (s.faultedBy c (encode i)) := by
  rw [runCommand_of_not_faulted hf, hx, conclude, raiseFault_of_not_faulted s hf]

/-- A command whose `RESULT` is an EXTRACT takes the fault that EXTRACT raises. -/
theorem runCommand_extract_of_raise (i : Instr) {x : Eval Nat} {c : FaultCode} (hx : x = .error (.raise c)) :
    runCommand i s (resultOf s x) = .next (s.faultedBy c (encode i)) :=
  runCommand_of_raise hf i (hx ▸ resultOf_error s _)

end

/-! ### NEW and LEN -/

theorem newEffect_of_wide {s : State} (h : s.op0 > 64) : newEffect s = .error (.raise .badWidth) := by
  rw [newEffect, failIf_pos h, Eval_error_bind]

theorem newEffect_of_le {s : State} (h : s.op0 ≤ 64) :
    newEffect s = .ok (((s.setArray { unit := s.port.arg0.setWidth 7, len := 0, mem := [] }).setIndex
      Index.empty).setPhase .opened) := by
  rw [newEffect, failIf_neg (Nat.not_lt.2 h), Eval_ok_bind, Eval_pure, State.op0, BitVec.ofNat_toNat]

/-- Settles O17, by the two answers of NEW's one check. -/
theorem newMakesAnEmptyArray : Obligations.NewMakesAnEmptyArray := by
  unfold Obligations.NewMakesAnEmptyArray
  exact fun s hf => ⟨fun h => runCommand_of_raise hf .new (newEffect_of_wide h),
    fun h => runCommand_of_ok hf .new (newEffect_of_le h), Memory.word_nil⟩

/-- Settles O20: LEN has no check, and writes `RESULT` only. -/
theorem lenReadsTheElementCount : Obligations.LenReadsTheElementCount := by
  unfold Obligations.LenReadsTheElementCount
  exact fun s hf => runCommand_of_ok hf .len rfl

/-! ### PUSH -/

section
variable {s : State}

/-- R72: the operand does not fit in `UNIT` bits. -/
abbrev PushOverwide (s : State) : Prop := s.array.unit.toNat < 64 ∧ 2 ^ s.array.unit.toNat ≤ s.op0

/-- R72: one more element would pass the greatest `LEN` or the end of the store. -/
abbrev PushOverflows (s : State) : Prop :=
  s.array.len.toNat = 2 ^ 64 - 1 ∨ 64 * s.hw.maxWords < (s.array.len.toNat + 1) * s.array.unit.toNat

/-- The array with the operand appended. -/
def pushedArray (s : State) : PackedArray :=
  { s.array with
    len := s.array.len + 1
    mem := memWrite s.array.mem (s.array.len.toNat * s.array.unit.toNat) s.array.unit.toNat s.op0 }

theorem pushEffect_of_built (h : s.status.phase = .built) : pushEffect s = .error (.raise .frozen) := by
  rw [pushEffect, failIf_pos h, Eval_error_bind]

/-- R72: outside BUILT, PUSH makes its two checks of the operand and the space, and appends. -/
theorem pushEffect_of_not_built (h : s.status.phase ≠ .built) :
    pushEffect s = (do
      failIf (PushOverwide s) .overwide
      failIf (PushOverflows s) .capacity
      return s.setArray (pushedArray s)) := by
  have hlen : BitVec.ofNat 64 (s.array.len.toNat + 1) = s.array.len + 1 := by simp [BitVec.ofNat_add]
  rw [pushedArray, ← hlen, pushEffect, failIf_neg h, Eval_ok_bind]

theorem pushEffect_of_overwide (h : s.status.phase ≠ .built) (hv : PushOverwide s) :
    pushEffect s = .error (.raise .overwide) := by
  rw [pushEffect_of_not_built h, failIf_pos hv, Eval_error_bind]

theorem pushEffect_of_overflows (h : s.status.phase ≠ .built) (hv : ¬ PushOverwide s) (hc : PushOverflows s) :
    pushEffect s = .error (.raise .capacity) := by
  rw [pushEffect_of_not_built h, failIf_neg hv, Eval_ok_bind, failIf_pos hc, Eval_error_bind]

theorem pushEffect_of_fits (h : s.status.phase ≠ .built) (hv : ¬ PushOverwide s) (hc : ¬ PushOverflows s) :
    pushEffect s = .ok (s.setArray (pushedArray s)) := by
  rw [pushEffect_of_not_built h, failIf_neg hv, Eval_ok_bind, failIf_neg hc, Eval_ok_bind, Eval_pure]

end

/-- Settles O18, by the three checks in order and, when none fails, the laws of the store write. -/
theorem pushAppendsOneElement : Obligations.PushAppendsOneElement := by
  unfold Obligations.PushAppendsOneElement
  rintro s v u l hm rfl rfl rfl
  refine ⟨fun h => ?frozen, fun h hv => ?overwide, fun h hv hc => ?capacity, fun h hv hc => ?fits⟩
  case frozen => exact runCommand_of_raise (by simp [h]) .push (pushEffect_of_built h)
  case overwide =>
    obtain ⟨hb, hf⟩ := phase_ne_of_opened h
    exact runCommand_of_raise hf .push (pushEffect_of_overwide hb hv)
  case capacity =>
    obtain ⟨hb, hf⟩ := phase_ne_of_opened h
    exact runCommand_of_raise hf .push (pushEffect_of_overflows hb hv hc)
  case fits =>
    obtain ⟨hb, hf⟩ := phase_ne_of_opened h
    exact ⟨(pushedArray s).mem, runCommand_of_ok hf .push (pushEffect_of_fits hb hv hc),
      memWrite_wf _ hm _ _ _, streamBit_memWrite _ hm _ _ _, fun a => readByte_memWrite_of_outside _ hm _⟩

/-! ### GET, RANGE and RANGEN -/

/-- R74 to R76: a command whose `RESULT` is an admitted EXTRACT writes the range's bits, with 0 above them. -/
theorem runCommand_extract_of_le {s : State} (hf : s.status.phase ≠ .faulted) (i : Instr) {start stop : Nat}
    (hwidth : stop - start ≤ 64) (h : start ≤ min stop s.array.nbits) (inv : Bool) :
    ∃ r : Word, runCommand i s (resultOf s (extract s.array start stop inv)) = .next (s.setResult r) ∧
      ∀ t, r.getLsbD t =
        (decide (t < min stop s.array.nbits - start) && (streamBit s.array.mem (start + t) ^^ inv)) := by
  refine ⟨_, runCommand_of_ok hf i ?_, getLsbD_ofNat_readRange s.array.mem start (by omega) inv⟩
  rw [extract_eq_readRange hwidth h, resultOf_ok]

theorem exec_rangeOf (inv : Bool) (s : State) :
    exec (rangeOf inv) s = runCommand (rangeOf inv) s (resultOf s (extract s.array s.op0 s.op1 inv)) := by
  cases inv <;> rfl

/-- Settles O22: RANGE and RANGEN are EXTRACT of their operands, with its faults and its bits. -/
theorem rangeReadsRawOrComplementedBits : Obligations.RangeReadsRawOrComplementedBits := by
  unfold Obligations.RangeReadsRawOrComplementedBits
  rintro s inv start stop hf rfl rfl
  simp only [Raises, exec_rangeOf]
  exact ⟨fun h => runCommand_extract_of_raise hf _ (extract_of_gt h inv),
    fun h hw => runCommand_extract_of_raise hf _ (extract_of_wide h hw inv),
    fun h hw he => runCommand_extract_of_raise hf _ (extract_of_beyond h hw he inv),
    fun hw h => runCommand_extract_of_le hf _ hw h inv⟩

theorem exec_get (s : State) :
    exec .get s = runCommand .get s
      (resultOf s (extract s.array (s.op0 * s.array.unit.toNat) ((s.op0 + 1) * s.array.unit.toNat) false)) := rfl

/-- R74: clamped to the `l` stored elements, element `i` keeps its `u` bits when it is stored and none
when it is not. -/
theorem lt_clampedElement_iff (i l u t : Nat) :
    t < min ((i + 1) * u) (l * u) - i * u ↔ t < u ∧ i < l := by
  rw [Nat.succ_mul]
  by_cases hi : i < l
  · have hend : i * u + u ≤ l * u := Nat.succ_mul i u ▸ Nat.mul_le_mul_right u hi
    omega
  · have hstart : l * u ≤ i * u := Nat.mul_le_mul_right u (Nat.not_lt.1 hi)
    omega

/-- Settles O21: GET is EXTRACT of one element, whose range ends after it starts and has at most 64 bits, so
only the clamped end decides the fault. -/
theorem getReadsOneElement : Obligations.GetReadsOneElement := by
  unfold Obligations.GetReadsOneElement
  rintro s u i hf rfl rfl hu
  have horder : s.op0 * s.array.unit.toNat ≤ (s.op0 + 1) * s.array.unit.toNat :=
    Nat.mul_le_mul_right _ (Nat.le_succ _)
  have hwidth : (s.op0 + 1) * s.array.unit.toNat - s.op0 * s.array.unit.toNat ≤ 64 := by
    rwa [Nat.succ_mul, Nat.add_sub_cancel_left]
  rw [Raises, exec_get]
  refine ⟨fun ⟨hpos, hi⟩ => ?beyond, fun h => ?element⟩
  case beyond =>
    have hend : s.array.nbits < s.op0 * s.array.unit.toNat := Nat.mul_lt_mul_of_pos_right hi hpos
    exact runCommand_extract_of_raise hf .get (extract_of_beyond horder hwidth (by omega) false)
  case element =>
    have hend : s.op0 * s.array.unit.toNat ≤ s.array.nbits := by
      rcases Nat.eq_zero_or_pos s.array.unit.toNat with hzero | hpos
      · simp [hzero]
      · exact Nat.mul_le_mul_right _ (Nat.not_lt.1 fun hi => h ⟨hpos, hi⟩)
    obtain ⟨r, hr, hbits⟩ := runCommand_extract_of_le hf .get hwidth (Nat.le_min.2 ⟨horder, hend⟩) false
    refine ⟨r, hr, fun t => ?_⟩
    rw [hbits, PackedArray.nbits, decide_eq_decide.2 (lt_clampedElement_iff _ _ _ t), Bool.decide_and, Bool.xor_false]
    rfl

end Sys2Proof.Machine
end

section
/-! The LUT ROM, `41_lut_rom.md`: the two tables as Mathlib's count and enumeration of the positions of a
pattern's 1 bits (R78, R79), their laws (R83), LUTR and LUTS (R81, R82), and WINDOW (R80). -/

namespace Sys2Proof.Machine

/-! ### The number of 1 bits -/

/-- Position `j` of the pattern holds a 1. -/
abbrev IsOne (p j : Nat) : Prop := p.testBit j = true

theorem countP_testBit_eq_count (p k : Nat) :
    (List.range k).countP (fun j => p.testBit j) = Nat.count (IsOne p) k := by
  simp [Nat.count]

theorem lt_two_pow_bitlen (v : Nat) : v < 2 ^ bitlen v := by
  unfold bitlen
  split
  · next h => simp [h]
  · exact Nat.lt_log2_self

theorem lt_of_isOne {v n j : Nat} (h : v < 2 ^ n) (hj : IsOne v j) : j < n :=
  (Nat.pow_lt_pow_iff_right (by decide)).1 ((Nat.ge_two_pow_of_testBit hj).trans_lt h)

/-- R7: any width that holds the value will do to count its 1 bits, since none lies beyond it. -/
theorem popcount_eq_count {v n : Nat} (h : v < 2 ^ n) : popcount v = Nat.count (IsOne v) n := by
  rw [popcount, countP_testBit_eq_count, Nat.count_eq_card_filter_range, Nat.count_eq_card_filter_range]
  congr 1
  ext j
  simp only [Finset.mem_filter, Finset.mem_range]
  exact and_congr_left fun hj => iff_of_true (lt_of_isOne (lt_two_pow_bitlen v) hj) (lt_of_isOne h hj)

/-! ### The tables -/

/-- R78: the low `k` bits of a pattern hold its 1 bits below position `k`. -/
theorem popcount_mod_eq_count (p k : Nat) : popcount (p % 2 ^ k) = Nat.count (IsOne p) k := by
  rw [popcount_eq_count (Nat.mod_lt p (Nat.two_pow_pos k)), ← countP_testBit_eq_count,
    ← countP_testBit_eq_count]
  refine List.countP_congr fun j hj => ?_
  simp [Nat.testBit_mod_two_pow, List.mem_range.1 hj]

theorem rankTable_eq_count (p k : Nat) : rankTable p k = Nat.count (IsOne p) k := popcount_mod_eq_count p k

theorem rankTable_succ (p k : Nat) : rankTable p (k + 1) = rankTable p k + if p.testBit k then 1 else 0 := by
  rw [rankTable_eq_count, rankTable_eq_count, Nat.count_succ]

theorem selectTable_of_popcount_le {lutS p k : Nat} (hk : popcount p ≤ k) : selectTable lutS p k = lutS :=
  if_neg (Nat.not_lt.2 hk)

section
variable {p k : Nat} (hk : k < popcount p)
include hk

/-- `k` below the popcount is below the number of positions, the condition of Mathlib's lemmas on `Nat.nth`. -/
theorem lt_card_of_lt_popcount (hf : (Set.ofPred (IsOne p)).Finite) : k < hf.toFinset.card := by
  rw [popcount_eq_count (lt_two_pow_bitlen p)] at hk
  exact hk.trans_le (Nat.count_le_card hf _)

theorem nth_isOne_lt {lutS : Nat} (hp : p < 2 ^ lutS) : Nat.nth (IsOne p) k < lutS :=
  Nat.nth_lt_of_lt_count (popcount_eq_count hp ▸ hk)

/-- R79: the select entry is the position of the `(k+1)`-th 1 bit. Up to and with that position there are
`k + 1` ones, and up to any earlier position at most `k`. -/
theorem selectTable_eq_nth {lutS : Nat} (hp : p < 2 ^ lutS) : selectTable lutS p k = Nat.nth (IsOne p) k := by
  have hcard := lt_card_of_lt_popcount hk
  have hfind : (List.range lutS).find? (fun q => popcount (p % 2 ^ (q + 1)) == k + 1) =
      some (Nat.nth (IsOne p) k) := by
    simp only [popcount_mod_eq_count]
    refine List.find?_range_eq_some.2 ⟨?here, List.mem_range.2 (nth_isOne_lt hk hp), fun j hj => ?earlier⟩
    case here => simpa using Nat.count_nth_succ hcard
    case earlier =>
      have hle : Nat.count (IsOne p) (j + 1) ≤ k :=
        (Nat.count_monotone _ (Nat.succ_le_of_lt hj)).trans_eq (Nat.count_nth hcard)
      simpa using (Nat.lt_succ_of_le hle).ne
  rw [selectTable, if_pos hk, hfind, Option.getD_some]

theorem testBit_selectTable {lutS : Nat} (hp : p < 2 ^ lutS) : p.testBit (selectTable lutS p k) = true := by
  rw [selectTable_eq_nth hk hp]
  exact Nat.nth_mem k (lt_card_of_lt_popcount hk)

theorem rankTable_selectTable {lutS : Nat} (hp : p < 2 ^ lutS) : rankTable p (selectTable lutS p k) = k := by
  rw [selectTable_eq_nth hk hp, rankTable_eq_count]
  exact Nat.count_nth (lt_card_of_lt_popcount hk)

end

/-- Settles O25. The rank law is the count's recursion; the select laws are those of the enumeration of the
positions of the 1 bits. -/
theorem rankAndSelectTablesObeyTheirLaws : Obligations.RankAndSelectTablesObeyTheirLaws := by
  unfold Obligations.RankAndSelectTablesObeyTheirLaws
  refine fun lutS p hp => ⟨fun k _ => ?rank, fun k hk => ⟨testBit_selectTable hk hp, rankTable_selectTable hk hp⟩,
    fun k k' hlt hk' => ?increasing⟩
  case rank =>
    rw [rankTable_succ, Nat.add_sub_cancel_left]
    exact ⟨rfl, Nat.le_add_right _ _⟩
  case increasing =>
    rw [selectTable_eq_nth (hlt.trans hk') hp, selectTable_eq_nth hk' hp]
    exact Nat.nth_lt_nth' hlt (lt_card_of_lt_popcount hk')

/-! ### LUTR and LUTS -/

theorem rankTable?_eq_none {lutS p k : Nat} (h : 2 ^ lutS ≤ p ∨ lutS < k) : rankTable? lutS p k = none :=
  if_neg (by omega)

theorem selectTable?_eq_none {lutS p k : Nat} (h : 2 ^ lutS ≤ p ∨ lutS ≤ k) : selectTable? lutS p k = none :=
  if_neg (by omega)

section
variable {s : State} (hf : s.status.phase ≠ .faulted) (i : Instr) {x : Option Nat}
include hf

/-- R81, R82: a row or column that does not exist is `LUT_INDEX`. -/
theorem runCommand_lutRead_of_none (hx : x = none) :
    runCommand i s (resultOf s (lutRead x)) = .next (s.faultedBy .lutIndex (encode i)) :=
  runCommand_of_raise hf i (hx ▸ rfl)

/-- R81, R82: an entry that exists goes to `RESULT`. -/
theorem runCommand_lutRead_of_some {v : Nat} (hx : x = some v) :
    runCommand i s (resultOf s (lutRead x)) = .next (s.setResult (BitVec.ofNat 64 v)) :=
  runCommand_of_ok hf i (hx ▸ rfl)

end

/-- Settles O23. The entry is a count among `k` positions, so it fits `RESULT` because `k`, the value of a
port register, does. -/
theorem lutrReadsTheRankTable : Obligations.LutrReadsTheRankTable := by
  unfold Obligations.LutrReadsTheRankTable
  rintro s p k hf rfl rfl
  refine ⟨fun h => runCommand_lutRead_of_none hf .lutr (rankTable?_eq_none h), fun hp hk =>
    ⟨_, runCommand_lutRead_of_some hf .lutr (rankTable?_eq_some hp hk), ?_⟩⟩
  have hfits : rankTable s.op0 s.op1 < 2 ^ 64 :=
    (rankTable_eq_count s.op0 s.op1 ▸ Nat.count_le _).trans_lt s.port.arg1.isLt
  rw [BitVec.toNat_ofNat, countP_testBit_eq_count, ← rankTable_eq_count]
  exact Nat.mod_eq_of_lt hfits

/-- Settles O24. Below the popcount the entry is the position of the `(k+1)`-th 1 bit (R79, R83), and from it
on the sentinel. -/
theorem lutsReadsTheSelectTable : Obligations.LutsReadsTheSelectTable := by
  unfold Obligations.LutsReadsTheSelectTable
  rintro s p k hf rfl rfl
  refine ⟨fun h => runCommand_lutRead_of_none hf .luts (selectTable?_eq_none h), fun hp hk =>
    ⟨_, runCommand_lutRead_of_some hf .luts (selectTable?_eq_some hp hk), fun hpop => ?position,
      selectTable_of_popcount_le⟩⟩
  refine ⟨?_, testBit_selectTable hpop hp, ?_⟩
  · exact (selectTable_eq_nth hpop hp).trans_lt (nth_isOne_lt hpop hp)
  · rw [countP_testBit_eq_count, ← rankTable_eq_count]
    exact rankTable_selectTable hpop hp

/-! ### WINDOW -/

/-- R80: with `before` counted already and not past the residual, the scan stops at the first count that
passes it. -/
theorem windowFrom_of_lt {c : List Nat} {j before r : Nat} (hle : before ≤ r) (hlt : r < before + c.sum) :
    ∃ i, windowFrom j before c r = some (j + i, before + (c.take i).sum) ∧ i < c.length ∧
      r < before + (c.take (i + 1)).sum ∧ ∀ i' < i, before + (c.take (i' + 1)).sum ≤ r := by
  induction c generalizing j before with
  | nil => exact absurd hlt (by simpa using hle)
  | cons x xs ih =>
    rw [List.sum_cons] at hlt
    rw [windowFrom]
    by_cases hx : before + x > r
    · exact ⟨0, by simp [hx]⟩
    · obtain ⟨i, hi, hlen, hpass, hleast⟩ := ih (j := j + 1) (Nat.not_lt.1 hx) (by omega)
      refine ⟨i + 1, ?_, Nat.succ_lt_succ hlen, ?_, fun i' hi' => ?_⟩
      · rw [if_neg hx, hi, List.take_succ_cons, List.sum_cons, Nat.add_right_comm, Nat.add_assoc, Nat.add_assoc]
      · rwa [List.take_succ_cons, List.sum_cons, ← Nat.add_assoc]
      · cases i' with
        | zero => simpa using hx
        | succ i' =>
          rw [List.take_succ_cons, List.sum_cons, ← Nat.add_assoc]
          exact hleast i' (Nat.lt_of_succ_lt_succ hi')

/-- R80: the scan has no result when no cumulative count passes the residual. -/
theorem windowFrom_of_le {c : List Nat} {j before r : Nat} (h : before + c.sum ≤ r) :
    windowFrom j before c r = none := by
  induction c generalizing j before with
  | nil => rfl
  | cons x xs ih =>
    rw [List.sum_cons] at h
    rw [windowFrom, if_neg (by omega), ih (by omega)]

/-- R80, I4: a call with no result is the internal fault. -/
theorem windowCall_of_none {c : List Nat} {r : Nat} (h : window c r = none) :
    windowCall c r = .error (.internal .windowUndefined) := by
  rw [windowCall, h]

/-- Settles O26: WINDOW is the scan from the first count, with nothing before it. -/
theorem windowFindsTheLeastChild : Obligations.WindowFindsTheLeastChild := by
  unfold Obligations.WindowFindsTheLeastChild
  refine fun c r => ⟨fun h => ?child, fun h => ?none⟩
  case child =>
    simpa [window] using windowFrom_of_lt (j := 0) (Nat.zero_le r) ((Nat.zero_add _).symm ▸ h)
  case none =>
    have hnone : window c r = none := windowFrom_of_le ((Nat.zero_add _).symm ▸ h)
    exact ⟨hnone, windowCall_of_none hnone⟩

end Sys2Proof.Machine
end

section
/-! The rank block aggregator, `42_rank.md`: ranges of stored bits and their popcounts (R10), the chunk read
through the ROM (R89), the build scan (R88), what BUILD checks and writes (R85 to R87), and RANK1 and RANK0
(R90 to R92). -/

namespace Sys2Proof.Machine

/-! ### The popcount of a range -/

@[simp] theorem popRange_self (m : Memory) (b : Bool) (p : Nat) : popRange m b p p = 0 := by
  simp [popRange]

theorem popRange_succ (m : Memory) (b : Bool) {lo hi : Nat} (h : lo ≤ hi) :
    popRange m b lo (hi + 1) = popRange m b lo hi + if streamBit m hi == b then 1 else 0 := by
  have hlen : hi + 1 - lo = hi - lo + 1 := by omega
  have hlast : lo + (hi - lo) = hi := by omega
  rw [popRange, hlen, List.range'_1_concat, List.countP_append, hlast, List.countP_singleton, popRange]

theorem popRange_add_popRange (m : Memory) (b : Bool) {lo mid hi : Nat} (h₁ : lo ≤ mid) (h₂ : mid ≤ hi) :
    popRange m b lo mid + popRange m b mid hi = popRange m b lo hi := by
  have hmid : lo + (mid - lo) = mid := by omega
  have hlen : mid - lo + (hi - mid) = hi - lo := by omega
  have hcat := List.range'_append_1 (s := lo) (m := mid - lo) (n := hi - mid)
  rw [hmid, hlen] at hcat
  rw [popRange, popRange, popRange, ← hcat, List.countP_append]

/-- R92: every position of the range holds a 1 or a 0. -/
theorem popRange_true_add_popRange_false (m : Memory) (lo hi : Nat) :
    popRange m true lo hi + popRange m false lo hi = hi - lo := by
  have hsplit := List.length_eq_countP_add_countP (streamBit m) (l := List.range' lo (hi - lo))
  simpa [popRange] using hsplit.symm

theorem length_occurrences (m : Memory) (b : Bool) (n : Nat) : (occurrences m b n).length = popRange m b 0 n := by
  rw [occurrences, popRange, ← List.countP_eq_length_filter, List.range_eq_range', Nat.sub_zero]

/-- R78: the table entry of a read counts the 1 bits of the range read, up to the column. -/
theorem rankTable_memRead (m : Memory) (p len k : Nat) :
    rankTable (memRead m p len) k = popRange m true p (p + min k len) := by
  induction k with
  | zero => simp [rankTable_eq_count]
  | succ k ih =>
    rw [rankTable_succ, ih, testBit_memRead]
    by_cases hk : k < len
    · have hmin : min (k + 1) len = k + 1 := Nat.min_eq_left hk
      rw [hmin, Nat.min_eq_left hk.le, ← Nat.add_assoc, popRange_succ m true (Nat.le_add_right p k)]
      simp [hk]
    · have hmin : min (k + 1) len = min k len := by omega
      simp [hk, hmin]

/-! ### The chunk read -/

section
variable {a : PackedArray} {s j : Nat}

/-- R89: the pattern of the small block `j`, with the positions beyond the stored bits reading as 0. -/
def chunkBits (a : PackedArray) (s j : Nat) : Nat :=
  memRead a.mem (j * s) (min (j * s + s) a.len.toNat - j * s)

theorem nbits_of_unit (hu : a.unit = 1) : a.nbits = a.len.toNat := by
  simp [PackedArray.nbits, hu]

/-- R89: a chunk that starts within the stored bits is read without a fault. -/
theorem chunk_eq_chunkBits (hu : a.unit = 1) (hs : s ≤ 64) (hj : j * s ≤ a.len.toNat) :
    chunk a s j = .ok (chunkBits a s j) := by
  rw [chunk, extract_of_le a _ _ false (Nat.le_add_right _ _) (by omega) (by rwa [nbits_of_unit hu]),
    nbits_of_unit hu]
  rfl

/-- R89: the pattern is a row of every ROM of at least `s` bits. -/
theorem chunkBits_lt {lutS : Nat} (hs : s ≤ lutS) : chunkBits a s j < 2 ^ lutS :=
  (memRead_lt _ _ _).trans_le (Nat.pow_le_pow_right (by decide) (by omega))

/-- R78, R89: a column up to `s` counts the stored 1 bits of the block below it. -/
theorem rankTable_chunkBits {k : Nat} (hk : k ≤ s) (hj : j * s ≤ a.len.toNat) :
    rankTable (chunkBits a s j) k = popRange a.mem true (j * s) (min (j * s + k) a.len.toNat) := by
  have hend : j * s + min k (min (j * s + s) a.len.toNat - j * s) = min (j * s + k) a.len.toNat := by omega
  rw [chunkBits, rankTable_memRead, hend]

end

/-! ### The build scan -/

theorem ceilDiv_succ {q : Nat} (hq : 0 < q) (j : Nat) : ceilDiv (j + 1) q = j / q + 1 := by
  have hsum : j + 1 + q - 1 = j + q := by omega
  rw [ceilDiv, hsum, Nat.add_div_right j hq]

/-- The large blocks that start below block `j`, where `q` blocks make a large one. -/
theorem ceilDiv_eq_ite {q j : Nat} (hq : 0 < q) : ceilDiv j q = if j % q = 0 then j / q else j / q + 1 := by
  cases j with
  | zero => simp [ceilDiv, Nat.div_eq_of_lt, hq]
  | succ j =>
    rw [ceilDiv_succ hq, Nat.succ_div]
    by_cases hdvd : q ∣ j + 1
    · rw [if_pos hdvd, if_pos (Nat.mod_eq_zero_of_dvd hdvd)]
    · rw [if_neg hdvd, if_neg (mt Nat.dvd_of_mod_eq_zero hdvd), Nat.add_zero]

/-- `LARGE[g]` (R87). -/
def largeEntry (m : Memory) (L g : Nat) : Nat := popRange m true 0 (g * L)

/-- `SMALL[j]` (R87). -/
def smallEntry (m : Memory) (s L j : Nat) : Nat := popRange m true ((j * s / L) * L) (j * s)

theorem largeCounts_eq_map (m : Memory) (n L : Nat) :
    largeCounts m n L = (List.range (n / L + 1)).map (largeEntry m L) := rfl

theorem smallCounts_eq_map (m : Memory) (n s L : Nat) :
    smallCounts m n s L = (List.range (n / s + 1)).map (smallEntry m s L) := rfl

theorem getElem?_largeCounts (m : Memory) {n L k : Nat} (hk : k ≤ n / L) :
    (largeCounts m n L)[k]? = some (largeEntry m L k) := by
  simp [largeCounts_eq_map, List.getElem?_range (Nat.lt_succ_of_le hk)]

theorem getElem?_smallCounts (m : Memory) {n s L j : Nat} (hj : j ≤ n / s) :
    (smallCounts m n s L)[j]? = some (smallEntry m s L j) := by
  simp [smallCounts_eq_map, List.getElem?_range (Nat.lt_succ_of_le hj)]

/-- R87: when `q` small blocks make a large one, `SMALL[j]` counts from the start of the large block of block `j`. -/
theorem smallEntry_mul (m : Memory) {s : Nat} (hs : 0 < s) (q j : Nat) :
    smallEntry m s (q * s) j = popRange m true (j / q * (q * s)) (j * s) := by
  rw [smallEntry, Nat.mul_div_mul_right j q hs]

/-- R88: `(total, within, LARGE, SMALL)` after the chunks below `k`, when `q` small blocks make a large one:
`total` counts all the bits scanned, `within` those of the large block of the last chunk. -/
def scanned (m : Memory) (n s q k : Nat) : Nat × Nat × List Nat × List Nat :=
  (popRange m true 0 (min (k * s) n), popRange m true ((k - 1) / q * (q * s)) (min (k * s) n),
    (List.range (ceilDiv k q)).map (largeEntry m (q * s)), (List.range k).map (smallEntry m s (q * s)))

/-- R92: the large block of position `i` is that of its small block, when `q` small blocks make a large one. -/
theorem div_largeLength (i q s : Nat) : i / (q * s) = i / s / q := by
  rw [Nat.mul_comm, Nat.div_div_eq_div_mul]

/-- R87: the large block of block `j` starts at or before it, and at it when `q` divides `j`. -/
theorem div_mul_mul_le (s q j : Nat) : j / q * (q * s) ≤ j * s := by
  rw [← Nat.mul_assoc]
  exact Nat.mul_le_mul_right s (Nat.div_mul_le_self j q)

theorem div_mul_mul_of_mod (s : Nat) {q j : Nat} (h : j % q = 0) : j / q * (q * s) = j * s := by
  rw [← Nat.mul_assoc, Nat.div_mul_cancel (Nat.dvd_of_mod_eq_zero h)]

section
variable {s q : Nat} (hs : 0 < s)
include hs

/-- R88: a chunk starts at a large-block boundary exactly when its number is a multiple of `q`. -/
theorem mul_mod_mul_eq_zero_iff (q j : Nat) : j * s % (q * s) = 0 ↔ j % q = 0 := by
  rw [Nat.mul_mod_mul_right, Nat.mul_eq_zero, or_iff_left hs.ne']

/-- R88: `LARGE` gains an entry, the running total, exactly at a large-block boundary. -/
theorem scanned_large (m : Memory) (hq : 0 < q) (j : Nat) :
    (if j * s % (q * s) = 0 then (List.range (ceilDiv j q)).map (largeEntry m (q * s)) ++ [popRange m true 0 (j * s)]
      else (List.range (ceilDiv j q)).map (largeEntry m (q * s))) =
    (List.range (ceilDiv (j + 1) q)).map (largeEntry m (q * s)) := by
  simp only [mul_mod_mul_eq_zero_iff hs, ceilDiv_eq_ite hq (j := j), ceilDiv_succ hq]
  split
  · next hmod => rw [List.range_succ, List.map_append, List.map_singleton, largeEntry, div_mul_mul_of_mod s hmod]
  · rfl

/-- R88: `within`, reset at a large-block boundary, is `SMALL[j]`. -/
theorem scanned_within (m : Memory) (j : Nat) :
    (if j * s % (q * s) = 0 then 0 else popRange m true ((j - 1) / q * (q * s)) (j * s)) = smallEntry m s (q * s) j := by
  rw [smallEntry_mul m hs]
  simp only [mul_mod_mul_eq_zero_iff hs]
  split
  · next hmod => rw [div_mul_mul_of_mod s hmod, popRange_self]
  · next hmod =>
    obtain ⟨i, rfl⟩ := Nat.exists_eq_succ_of_ne_zero (n := j) (by rintro rfl; exact hmod (Nat.zero_mod q))
    rw [Nat.succ_sub_one, Nat.succ_div_of_not_dvd (mt Nat.mod_eq_zero_of_dvd hmod)]

end

section
variable {a : PackedArray} {lutS s : Nat} (hu : a.unit = 1) (hlut : lutS ≤ 64) (hs : s ≤ lutS)
include hu hlut hs

/-- R88: one round of the scan, its chunk read and its ROM entry written out. -/
theorem rankScanStep_eq {j : Nat} (hj : j * s ≤ a.len.toNat) (L total within : Nat) (large small : List Nat) :
    rankScanStep a lutS s L (total, within, large, small) j =
      .ok (total + rankTable (chunkBits a s j) s,
        (if j * s % L = 0 then 0 else within) + rankTable (chunkBits a s j) s,
        (if j * s % L = 0 then large ++ [total] else large),
        small ++ [if j * s % L = 0 then 0 else within]) := by
  simp only [rankScanStep, chunk_eq_chunkBits hu (hs.trans hlut) hj, rankTable?_eq_some (chunkBits_lt hs) hs,
    Eval_ok_bind, entry_some, Eval_pure]

theorem rankScanStep_scanned (hpos : 0 < s) {q j : Nat} (hq : 0 < q) (hj : j * s ≤ a.len.toNat) :
    rankScanStep a lutS s (q * s) (scanned a.mem a.len.toNat s q j) j =
      .ok (scanned a.mem a.len.toNat s q (j + 1)) := by
  have hend : j * s ≤ min (j * s + s) a.len.toNat := by omega
  rw [scanned, rankScanStep_eq hu hlut hs hj, Nat.min_eq_left hj, scanned_large hpos a.mem hq,
    scanned_within hpos, rankTable_chunkBits le_rfl hj, popRange_add_popRange _ _ (Nat.zero_le _) hend,
    smallEntry_mul _ hpos, popRange_add_popRange _ _ (div_mul_mul_le s q j) hend, ← smallEntry_mul _ hpos,
    scanned, Nat.succ_mul, Nat.add_sub_cancel, List.range_succ (n := j), List.map_append, List.map_singleton]

/-- R88: the rounds of the scan, in order. -/
theorem foldlM_rankScanStep (hpos : 0 < s) {q : Nat} (hq : 0 < q) {k : Nat} (hk : k ≤ a.len.toNat / s + 1) :
    (List.range k).foldlM (rankScanStep a lutS s (q * s)) (0, 0, [], []) =
      .ok (scanned a.mem a.len.toNat s q k) := by
  induction k with
  | zero => simp [scanned, ceilDiv_eq_ite hq]
  | succ k ih =>
    have hj : k * s ≤ a.len.toNat := (Nat.le_div_iff_mul_le hpos).1 (Nat.le_of_lt_succ hk)
    rw [List.range_succ, List.foldlM_append, ih (Nat.le_of_succ_le hk), Eval_ok_bind, List.foldlM_cons,
      rankScanStep_scanned hu hlut hs hpos hq hj, Eval_ok_bind, List.foldlM_nil, Eval_pure]

/-- R88: after the last chunk every counter of R87 is written, since `n div L` is `(n div s) div q`. -/
theorem rankScan_eq (hpos : 0 < s) {L : Nat} (hL : s ≤ L) (hmod : L % s = 0) :
    rankScan a lutS a.len.toNat s L =
      .ok (largeCounts a.mem a.len.toNat L, smallCounts a.mem a.len.toNat s L) := by
  obtain ⟨q, rfl⟩ := exists_eq_mul_left_of_dvd (Nat.dvd_of_mod_eq_zero hmod)
  have hq : 0 < q := Nat.pos_of_mul_pos_right (hpos.trans_le hL)
  rw [rankScan, foldlM_rankScanStep hu hlut hs hpos hq le_rfl, Eval_ok_bind, Eval_pure, scanned, ceilDiv_succ hq,
    ← div_largeLength, largeCounts_eq_map, smallCounts_eq_map]

end

/-- Settles O30: the scan's accumulators are known after every chunk, and after the last one they hold R87's
counters. -/
theorem rankScanWritesTheCounters : Obligations.RankScanWritesTheCounters := by
  unfold Obligations.RankScanWritesTheCounters
  exact fun a lutS sb lb hu hlut hpos hs hL hmod => rankScan_eq hu hlut hs hpos hL hmod

/-! ### BUILD -/

/-- R30: the parameter, in the words of R85 and R95. -/
theorem ite_ne_zero_eq_configured (r : Word) (default : Nat) :
    (if r ≠ 0 then r.toNat else default) = configured r default := ite_not _ _ _

theorem configured_lt {r : Word} {default : Nat} (h : default < 2 ^ 64) : configured r default < 2 ^ 64 := by
  unfold configured
  split
  · exact h
  · exact r.isLt

theorem buildLegal_iff (hw : Params) (cfg : ParamRegs) (n : Nat) :
    buildLegal hw cfg n ↔ 1 ≤ rankS hw cfg n ∧ rankS hw cfg n ≤ hw.lutS ∧ rankS hw cfg n ≤ rankL hw cfg n ∧
      rankL hw cfg n % rankS hw cfg n = 0 ∧ 2 ≤ selBranch cfg n ∧ 1 ≤ selLeaf hw cfg ∧ selLeaf hw cfg ≤ hw.lutS := by
  simp only [buildLegal, rankLegal, selectLegal, and_assoc]

section
variable {s : State}

theorem buildEffect_of_built (h : s.status.phase = .built) : buildEffect s = .error (.raise .frozen) := by
  rw [buildEffect, failIf_pos h, Eval_error_bind]

theorem buildEffect_of_unit_ne (h : s.status.phase ≠ .built) (hu : s.array.unit ≠ 1) :
    buildEffect s = .error (.raise .buildUnit) := by
  rw [buildEffect, failIf_neg h, Eval_ok_bind, failIf_pos hu, Eval_error_bind]

/-- R112: with one-bit elements outside BUILT, only the legality of the parameters is left to check. -/
theorem buildEffect_of_unit (h : s.status.phase ≠ .built) (hu : s.array.unit = 1) :
    buildEffect s = (do
      failIf (¬ buildLegal s.hw s.cfg s.array.len.toNat) .badConfig
      return (s.setIndex (builtIndex s.hw s.cfg s.array.mem s.array.len.toNat)).setPhase .built) := by
  rw [buildEffect, failIf_neg h, Eval_ok_bind, failIf_neg (not_not.2 hu), Eval_ok_bind]

theorem buildEffect_of_illegal (h : s.status.phase ≠ .built) (hu : s.array.unit = 1)
    (hlegal : ¬ buildLegal s.hw s.cfg s.array.len.toNat) : buildEffect s = .error (.raise .badConfig) := by
  rw [buildEffect_of_unit h hu, failIf_pos hlegal, Eval_error_bind]

theorem buildEffect_of_legal (h : s.status.phase ≠ .built) (hu : s.array.unit = 1)
    (hlegal : buildLegal s.hw s.cfg s.array.len.toNat) :
    buildEffect s = .ok ((s.setIndex (builtIndex s.hw s.cfg s.array.mem s.array.len.toNat)).setPhase .built) := by
  rw [buildEffect_of_unit h hu, failIf_neg (not_not.2 hlegal), Eval_ok_bind, Eval_pure]

end

/-- Settles O27, by BUILD's three checks in order. The statement's formulas are the model's parameters, and
the counts it names are the lengths of the two lists of occurrences. -/
theorem buildChecksAndWritesItsParameters : Obligations.BuildChecksAndWritesItsParameters := by
  unfold Obligations.BuildChecksAndWritesItsParameters
  intro s n sb lb lg P dm br lf hn hsb hlb hlg hP hdm hbr hlf
  rw [ite_ne_zero_eq_configured] at hsb hlb hP hdm hbr hlf
  subst hn hsb hlb hlg hP hdm hbr hlf
  refine ⟨fun h => ?frozen, fun h hu => ?unit, fun h hu hillegal => ?config, fun h hu hlegal => ?built⟩
  case frozen => exact runCommand_of_raise (by simp [h]) .build (buildEffect_of_built h)
  case unit =>
    obtain ⟨hb, hf⟩ := phase_ne_of_opened h
    exact runCommand_of_raise hf .build (buildEffect_of_unit_ne hb hu)
  case config =>
    obtain ⟨hb, hf⟩ := phase_ne_of_opened h
    exact runCommand_of_raise hf .build (buildEffect_of_illegal hb hu (mt (buildLegal_iff _ _ _).1 hillegal))
  case built =>
    obtain ⟨hb, hf⟩ := phase_ne_of_opened h
    simp only [← length_occurrences]
    exact ⟨_, runCommand_of_ok hf .build (buildEffect_of_legal hb hu ((buildLegal_iff _ _ _).2 hlegal)),
      rfl, rfl, rfl, rfl, rfl⟩

/-! ### The rank index in BUILT -/

theorem lutS_le_of_wellFormed {p : Params} (h : p.wellFormed = true) : p.lutS ≤ 64 := by
  simp only [Params.wellFormed, Bool.and_eq_true, decide_eq_true_eq] at h
  obtain ⟨⟨-, hlut⟩, -⟩ := h
  exact hlut

section
variable {s : State} (hinv : Inv s) (hb : s.status.phase = .built)
include hinv

theorem Inv.lutS_le : s.hw.lutS ≤ 64 := lutS_le_of_wellFormed hinv.hwLegal

include hb

theorem Inv.unit_eq_one : s.array.unit = 1 := by
  obtain ⟨hu, -, -⟩ := hinv.builtIndex hb
  exact hu

theorem Inv.rankLegal_parameters :
    rankLegal s.hw.lutS (rankS s.hw s.cfg s.array.len.toNat) (rankL s.hw s.cfg s.array.len.toNat) := by
  obtain ⟨-, ⟨hrank, -⟩, -⟩ := hinv.builtIndex hb
  exact hrank

theorem Inv.index_eq : s.index = Machine.builtIndex s.hw s.cfg s.array.mem s.array.len.toNat := by
  obtain ⟨-, -, hx⟩ := hinv.builtIndex hb
  exact hx

/-- R85, R86: a legal `s` is at most `LUT_S`, so its register loses nothing. -/
theorem Inv.toNat_eff_rankS : s.index.eff.rankS.toNat = rankS s.hw s.cfg s.array.len.toNat := by
  obtain ⟨-, hs, -⟩ := hinv.rankLegal_parameters hb
  have hlut := hinv.lutS_le
  rw [hinv.index_eq hb]
  exact Nat.mod_eq_of_lt (by omega)

/-- R85: `L` is a register's value or, by default, at most `128^2`, so its register loses nothing. -/
theorem Inv.toNat_eff_rankL : s.index.eff.rankL.toNat = rankL s.hw s.cfg s.array.len.toNat := by
  obtain ⟨-, hs, -⟩ := hinv.rankLegal_parameters hb
  have hlut := hinv.lutS_le
  have hdefault : (2 * rankS s.hw s.cfg s.array.len.toNat) ^ 2 ≤ (2 * 64) ^ 2 := Nat.pow_le_pow_left (by omega) 2
  rw [hinv.index_eq hb]
  exact Nat.mod_eq_of_lt (configured_lt (by omega))

/-- R86: the registers hold legal block lengths. -/
theorem Inv.rankLegal_eff : rankLegal s.hw.lutS s.index.eff.rankS.toNat s.index.eff.rankL.toNat := by
  rw [hinv.toNat_eff_rankS hb, hinv.toNat_eff_rankL hb]
  exact hinv.rankLegal_parameters hb

theorem Inv.large_eq : s.index.large = largeCounts s.array.mem s.array.len.toNat s.index.eff.rankL.toNat := by
  rw [hinv.toNat_eff_rankL hb, hinv.index_eq hb]
  rfl

theorem Inv.small_eq : s.index.small =
    smallCounts s.array.mem s.array.len.toNat s.index.eff.rankS.toNat s.index.eff.rankL.toNat := by
  rw [hinv.toNat_eff_rankS hb, hinv.toNat_eff_rankL hb, hinv.index_eq hb]
  rfl

end

/-- Settles O29: in BUILT the invariant says that the index is the one BUILD makes, for the block lengths that
the registers hold. -/
theorem buildWritesTheRankCounters : Obligations.BuildWritesTheRankCounters := by
  unfold Obligations.BuildWritesTheRankCounters
  rintro s n sb lb hinv hb rfl rfl rfl
  rw [hinv.large_eq hb, hinv.small_eq hb]
  exact ⟨by simp [largeCounts_eq_map], by simp [smallCounts_eq_map], fun k => getElem?_largeCounts _,
    fun j => getElem?_smallCounts _⟩

/-! ### RANK1 and RANK0 -/

section
variable {s : State}

theorem rankQuery_of_not_built (h : s.status.phase ≠ .built) : rankQuery s = .error (.raise .notBuilt) := by
  rw [rankQuery, failIf_pos h, Eval_error_bind]

theorem rankQuery_of_gt (h : s.status.phase = .built) (hi : s.array.len.toNat < s.op0) :
    rankQuery s = .error (.raise .rankIndex) := by
  rw [rankQuery, failIf_neg (not_not.2 h), Eval_ok_bind, failIf_pos hi, Eval_error_bind]

theorem rankQuery_of_le (h : s.status.phase = .built) (hi : s.op0 ≤ s.array.len.toNat) :
    rankQuery s = rankLookup s s.op0 := by
  rw [rankQuery, failIf_neg (not_not.2 h), Eval_ok_bind, failIf_neg (Nat.not_lt.2 hi), Eval_ok_bind]

/-- R90, R91: both commands take the fault of the shared query. -/
theorem rank_raises {c : FaultCode} (hf : s.status.phase ≠ .faulted) (h : rankQuery s = .error (.raise c)) :
    Raises .rank1 s c ∧ Raises .rank0 s c :=
  ⟨runCommand_of_raise hf .rank1 (h ▸ rfl), runCommand_of_raise hf .rank0 (h ▸ rfl)⟩

/-- R90, R91: RANK1 writes the value of the shared query, and RANK0 subtracts it from `i`. -/
theorem rank_writes {v : Nat} (hf : s.status.phase ≠ .faulted) (h : rankQuery s = .ok v) :
    exec .rank1 s = .next (s.setResult (BitVec.ofNat 64 v)) ∧
      exec .rank0 s = .next (s.setResult (BitVec.ofNat 64 (s.op0 - v))) :=
  ⟨runCommand_of_ok hf .rank1 (h ▸ rfl), runCommand_of_ok hf .rank0 (h ▸ rfl)⟩

end

/-- `R1(i)` (R90): the two counters of R87 and the table entry of the chunk. -/
def rankSum (a : PackedArray) (s L i : Nat) : Nat :=
  largeEntry a.mem L (i / L) + smallEntry a.mem s L (i / s) + rankTable (chunkBits a s (i / s)) (i % s)

/-- R92: the three terms count the bits of three ranges that follow one another up to `i`. -/
theorem rankSum_eq_popRange {a : PackedArray} {s L i : Nat} (hs : 0 < s) (hmod : L % s = 0) (hi : i ≤ a.len.toNat) :
    rankSum a s L i = popRange a.mem true 0 i := by
  obtain ⟨q, rfl⟩ := exists_eq_mul_left_of_dvd (Nat.dvd_of_mod_eq_zero hmod)
  have hblock : i / s * s ≤ i := Nat.div_mul_le_self i s
  have hend : min (i / s * s + i % s) a.len.toNat = i := by rw [Nat.div_add_mod', Nat.min_eq_left hi]
  rw [rankSum, rankTable_chunkBits (Nat.mod_lt i hs).le (hblock.trans hi), hend, largeEntry, smallEntry_mul _ hs,
    div_largeLength i q s, popRange_add_popRange _ _ (Nat.zero_le _) (div_mul_mul_le s q _),
    popRange_add_popRange _ _ (Nat.zero_le _) hblock]

/-- R90: in BUILT the lookup finds both counters and the ROM entry. -/
theorem rankLookup_eq_rankSum {s : State} (hinv : Inv s) (hb : s.status.phase = .built) {i : Nat}
    (hi : i ≤ s.array.len.toNat) :
    rankLookup s i = .ok (rankSum s.array s.index.eff.rankS.toNat s.index.eff.rankL.toNat i) := by
  obtain ⟨hpos, hs, -⟩ := hinv.rankLegal_eff hb
  have hchunk := chunk_eq_chunkBits (hinv.unit_eq_one hb) (hs.trans hinv.lutS_le)
    ((Nat.div_mul_le_self i s.index.eff.rankS.toNat).trans hi)
  have hcolumn : i % s.index.eff.rankS.toNat ≤ s.hw.lutS := (Nat.mod_lt i hpos).le.trans hs
  simp only [rankLookup, hinv.large_eq hb, hinv.small_eq hb, getElem?_largeCounts _ (Nat.div_le_div_right hi),
    getElem?_smallCounts _ (Nat.div_le_div_right hi), hchunk, rankTable?_eq_some (chunkBits_lt hs) hcolumn,
    entry_some, Eval_ok_bind, Eval_pure, rankSum]

/-- Settles O33: RANK1's sum is the count of 1 bits below `i`, and the 0 bits are the other positions. -/
theorem rankCountsTheBitsBelow : Obligations.RankCountsTheBitsBelow := by
  unfold Obligations.RankCountsTheBitsBelow
  rintro s _ hinv hb rfl (hi : s.op0 ≤ s.array.len.toNat)
  obtain ⟨hpos, -, -, hmod⟩ := hinv.rankLegal_eff hb
  have hquery : rankQuery s = .ok (popRange s.array.mem true 0 s.op0) := by
    rw [rankQuery_of_le hb hi, rankLookup_eq_rankSum hinv hb hi, rankSum_eq_popRange hpos hmod hi]
  obtain ⟨hrank1, hrank0⟩ := rank_writes (by simp [hb]) hquery
  have htotal := popRange_true_add_popRange_false s.array.mem 0 s.op0
  have hzeros : popRange s.array.mem false 0 s.op0 = s.op0 - popRange s.array.mem true 0 s.op0 := by omega
  have hle : popRange s.array.mem true 0 s.op0 ≤ s.op0 := by omega
  exact ⟨hrank1, hzeros ▸ hrank0, hzeros, hle⟩

/-- Settles O34, by the two checks in order and then the lookup. -/
theorem rankAddsCountersAndTableEntry : Obligations.RankAddsCountersAndTableEntry := by
  unfold Obligations.RankAddsCountersAndTableEntry
  rintro s i n sb lb hinv rfl rfl rfl rfl
  refine ⟨fun h => ?notBuilt, fun h hi => ?index, fun h hi => ?lookup⟩
  case notBuilt =>
    obtain ⟨hb, hf⟩ := phase_ne_of_opened h
    exact rank_raises hf (rankQuery_of_not_built hb)
  case index => exact rank_raises (by simp [h]) (rankQuery_of_gt h hi)
  case lookup =>
    rw [hinv.large_eq h, hinv.small_eq h]
    exact ⟨_, _, _, getElem?_largeCounts _ (Nat.div_le_div_right hi),
      getElem?_smallCounts _ (Nat.div_le_div_right hi), rfl,
      rank_writes (by simp [h]) ((rankQuery_of_le h hi).trans (rankLookup_eq_rankSum hinv h hi))⟩

end Sys2Proof.Machine
end

section
/-! The select directories, `43_select.md`: the count tree and its descent (R80, R100, R102), the groups of
occurrences and their records (R96 to R99), the leaf read (R103), and SELECT1 and SELECT0 (R104 to R107). -/

namespace Sys2Proof.Machine

theorem lt_ceilDiv_iff {a b : Nat} (hb : 0 < b) (j : Nat) : j < ceilDiv a b ↔ j * b < a := by
  have hle : ceilDiv a b ≤ j ↔ a ≤ b * j := ceilDiv_le_iff_le_mul hb
  rw [← Nat.not_le, ← Nat.not_le, Nat.mul_comm, hle]

theorem le_ceilDiv_mul {b : Nat} (hb : 0 < b) (a : Nat) : a ≤ ceilDiv a b * b :=
  Nat.not_lt.1 (mt (lt_ceilDiv_iff hb _).2 (lt_irrefl _))

/-- R100: `branch ≥ 2` shrinks every level of two or more entries. -/
theorem ceilDiv_lt_self {a b : Nat} (ha : 2 ≤ a) (hb : 2 ≤ b) : ceilDiv a b < a := by
  by_contra h
  have hlast : (a - 1) * b < a := (lt_ceilDiv_iff (by omega) (a - 1)).1 (by omega)
  have hdouble : (a - 1) * 2 ≤ (a - 1) * b := Nat.mul_le_mul_left _ hb
  omega

/-! ### Cumulative counts -/

/-- The cumulative count before entry `k` of a level (R80). -/
def countBefore (l : List Nat) (k : Nat) : Nat := (l.take k).sum

@[simp] theorem countBefore_zero (l : List Nat) : countBefore l 0 = 0 := rfl

theorem countBefore_of_length_le {l : List Nat} {k : Nat} (h : l.length ≤ k) : countBefore l k = l.sum := by
  rw [countBefore, List.take_of_length_le h]

theorem countBefore_add (l : List Nat) (i k : Nat) :
    countBefore l (i + k) = countBefore l i + ((l.drop i).take k).sum := by
  rw [countBefore, List.take_add, List.sum_append, countBefore]

theorem countBefore_mono (l : List Nat) : Monotone (countBefore l) := by
  intro i k h
  rw [← Nat.add_sub_cancel' h, countBefore_add]
  exact Nat.le_add_right _ _

theorem countBefore_succ {l : List Nat} {k x : Nat} (h : l[k]? = some x) :
    countBefore l (k + 1) = countBefore l k + x := by
  rw [countBefore, List.take_add_one, h, List.sum_append, countBefore]
  simp

theorem countBefore_min_length (l : List Nat) (k : Nat) : countBefore l (min k l.length) = countBefore l k := by
  rw [countBefore, ← List.take_eq_take_min, countBefore]

theorem lt_length_of_countBefore_lt {l : List Nat} {k : Nat} (h : countBefore l k < countBefore l (k + 1)) :
    k < l.length := by
  by_contra hk
  rw [countBefore_of_length_le (by omega), countBefore_of_length_le (by omega)] at h
  exact lt_irrefl _ h

/-! ### The count tree -/

@[simp] theorem length_parentCounts (branch : Nat) (lvl : List Nat) :
    (parentCounts branch lvl).length = ceilDiv lvl.length branch := by
  simp [parentCounts]

theorem getElem?_parentCounts {branch : Nat} {lvl : List Nat} {j : Nat} (hj : j < ceilDiv lvl.length branch) :
    (parentCounts branch lvl)[j]? = some ((lvl.drop (j * branch)).take branch).sum := by
  simp [parentCounts, List.getElem?_range hj]

/-- R100: the parents before `j` count what their children, the entries before `j * branch`, count. -/
theorem countBefore_parentCounts {branch : Nat} (hb : 0 < branch) (lvl : List Nat) (j : Nat) :
    countBefore (parentCounts branch lvl) j = countBefore lvl (j * branch) := by
  induction j with
  | zero => simp
  | succ j ih =>
    by_cases hj : j < ceilDiv lvl.length branch
    · rw [countBefore_succ (getElem?_parentCounts hj), ih, Nat.succ_mul, countBefore_add]
    · have hlen : (parentCounts branch lvl).length ≤ j := by simpa using hj
      have hend : lvl.length ≤ j * branch := by simpa [lt_ceilDiv_iff hb] using hj
      rw [countBefore_of_length_le (hlen.trans (Nat.le_succ j)), ← countBefore_of_length_le hlen, ih,
        countBefore_of_length_le hend,
        countBefore_of_length_le (hend.trans (Nat.mul_le_mul_right branch (Nat.le_succ j)))]

theorem sum_parentCounts {branch : Nat} (hb : 0 < branch) (lvl : List Nat) :
    (parentCounts branch lvl).sum = lvl.sum := by
  rw [← countBefore_of_length_le (length_parentCounts branch lvl).le, countBefore_parentCounts hb,
    countBefore_of_length_le (le_ceilDiv_mul hb lvl.length)]

/-- R100: `upper` is the level that the loop puts above `lower`. -/
def IsLevelAbove (branch P : Nat) (upper lower : List Nat) : Prop :=
  P < lower.length ∧ upper = parentCounts branch lower

section
variable {branch P : Nat}

theorem isChain_levelsAbove {fuel : Nat} {lvl : List Nat} {below : List (List Nat)}
    (h : (lvl :: below).IsChain (IsLevelAbove branch P)) :
    (levelsAbove branch P fuel lvl below).IsChain (IsLevelAbove branch P) := by
  induction fuel generalizing lvl below with
  | zero => exact h
  | succ fuel ih =>
    rw [levelsAbove]
    split
    · next hlt => exact ih (List.isChain_cons_cons.2 ⟨⟨hlt, rfl⟩, h⟩)
    · exact h

theorem getLast?_levelsAbove (fuel : Nat) (lvl : List Nat) (below : List (List Nat)) :
    (levelsAbove branch P fuel lvl below).getLast? = (lvl :: below).getLast? := by
  induction fuel generalizing lvl below with
  | zero => rfl
  | succ fuel ih =>
    rw [levelsAbove]
    split
    · rw [ih, List.getLast?_cons_cons]
    · rfl

/-- R100: each round shrinks the level, so the loop ends with a level of at most `P` entries. -/
theorem head?_levelsAbove (hb : 2 ≤ branch) (hP : 1 ≤ P) {fuel : Nat} {lvl : List Nat} (h : lvl.length ≤ fuel)
    (below : List (List Nat)) :
    ∃ top, (levelsAbove branch P fuel lvl below).head? = some top ∧ top.length ≤ P := by
  induction fuel generalizing lvl below with
  | zero => exact ⟨lvl, rfl, by omega⟩
  | succ fuel ih =>
    rw [levelsAbove]
    split
    · next hlt =>
      have hshrink : ceilDiv lvl.length branch < lvl.length := ceilDiv_lt_self (by omega) hb
      exact ih (by rw [length_parentCounts]; omega) _
    · next hle => exact ⟨lvl, rfl, Nat.not_lt.1 hle⟩

theorem isChain_countLevels (leaves : List Nat) :
    (countLevels branch P leaves).IsChain (IsLevelAbove branch P) :=
  isChain_levelsAbove (List.isChain_singleton leaves)

@[simp] theorem getLast?_countLevels (leaves : List Nat) : (countLevels branch P leaves).getLast? = some leaves :=
  getLast?_levelsAbove _ _ _

/-- R100: every level has the total of the level below it, down to the leaves. -/
theorem sum_eq_of_isChain (hb : 0 < branch) {V : List (List Nat)} (h : V.IsChain (IsLevelAbove branch P))
    {leaves : List Nat} (hlast : V.getLast? = some leaves) : ∀ lvl ∈ V, lvl.sum = leaves.sum := by
  induction V with
  | nil => simp
  | cons top below ih =>
    cases below with
    | nil => simpa using congrArg List.sum (Option.some.inj hlast)
    | cons next below =>
      obtain ⟨⟨-, htop⟩, hbelow⟩ := List.isChain_cons_cons.1 h
      rw [List.getLast?_cons_cons] at hlast
      refine List.forall_mem_cons.2 ⟨?_, ih hbelow hlast⟩
      rw [htop, sum_parentCounts hb]
      exact ih hbelow hlast next List.mem_cons_self

theorem isLevelAbove_of_getElem? {V : List (List Nat)} (h : V.IsChain (IsLevelAbove branch P)) {t : Nat}
    {lvl below : List Nat} (hlvl : V[t]? = some lvl) (hbelow : V[t + 1]? = some below) :
    IsLevelAbove branch P lvl below := by
  obtain ⟨ht, rfl⟩ := List.getElem?_eq_some_iff.1 hlvl
  obtain ⟨ht', rfl⟩ := List.getElem?_eq_some_iff.1 hbelow
  exact List.isChain_iff_getElem.1 h t ht'

end

/-- R100: the last parent may have fewer children than `branch`; cutting its range at the end of the level
changes nothing. -/
theorem take_drop_min_length (l : List Nat) (j branch : Nat) :
    (l.drop (j * branch)).take (min ((j + 1) * branch) l.length - j * branch) = (l.drop (j * branch)).take branch := by
  have hend : (j + 1) * branch = j * branch + branch := Nat.succ_mul j branch
  rw [List.take_eq_take_iff, List.length_drop]
  omega

/-- Settles O32: the tree is a chain of levels, each the parents of the next, from the leaves upward. -/
theorem countTreeSumsItsLeaves : Obligations.CountTreeSumsItsLeaves := by
  unfold Obligations.CountTreeSumsItsLeaves
  rintro branch P leaves _ hb hP rfl
  have hchain := isChain_countLevels (branch := branch) (P := P) leaves
  refine ⟨getLast?_countLevels leaves, head?_levelsAbove hb hP le_rfl [],
    sum_eq_of_isChain (by omega) hchain (getLast?_countLevels leaves), fun t lvl below hlvl hbelow => ?_⟩
  obtain ⟨hlong, rfl⟩ := isLevelAbove_of_getElem? hchain hlvl hbelow
  refine ⟨hlong, length_parentCounts branch below, fun j hj => ?_⟩
  rw [take_drop_min_length, getElem?_parentCounts (length_parentCounts branch below ▸ hj)]

/-! ### The descent -/

/-- Occurrence number `R` of a level's counts is counted by its entry `c`. -/
def CountedBy (l : List Nat) (R c : Nat) : Prop := countBefore l c ≤ R ∧ R < countBefore l (c + 1)

/-- R80: a call on the window `[lo, hi)` finds the entry of the level that counts `R`, and answers its place in
the window and the count before it in the window. -/
theorem windowCall_of_lt {l : List Nat} {lo hi R : Nat} (hlo : countBefore l lo ≤ R)
    (hhi : R < countBefore l hi) :
    ∃ j, windowCall ((l.drop lo).take (hi - lo)) (R - countBefore l lo) =
        .ok (j, countBefore l (lo + j) - countBefore l lo) ∧ CountedBy l R (lo + j) := by
  have hle : lo ≤ hi := ((countBefore_mono l).reflect_lt (hlo.trans_lt hhi)).le
  have hsum : countBefore l hi = countBefore l lo + ((l.drop lo).take (hi - lo)).sum := by
    rw [← countBefore_add, Nat.add_sub_cancel' hle]
  obtain ⟨j, hj, hlen, hpass, hleast⟩ :=
    windowFrom_of_lt (c := (l.drop lo).take (hi - lo)) (j := 0) (Nat.zero_le (R - countBefore l lo)) (by omega)
  have hwithin : j < hi - lo := hlen.trans_le (List.length_take_le _ _)
  have htake : ∀ k ≤ hi - lo,
      countBefore l (lo + k) = countBefore l lo + (((l.drop lo).take (hi - lo)).take k).sum := by
    intro k hk
    rw [List.take_take, Nat.min_eq_left hk, countBefore_add]
  refine ⟨j, ?answer, ?least, ?passes⟩
  case answer =>
    rw [windowCall, window, hj, htake j hwithin.le, Nat.add_sub_cancel_left, Nat.zero_add, Nat.zero_add]
  case least =>
    cases j with
    | zero => exact hlo
    | succ j =>
      have := hleast j (Nat.lt_succ_self j)
      rw [htake (j + 1) hwithin.le]
      omega
  case passes =>
    rw [Nat.add_assoc, htake (j + 1) hwithin]
    omega

section
variable {branch lo hi r c before : Nat} {lvl : List Nat}
  (h : windowCall ((lvl.drop lo).take (hi - lo)) r = .ok (c, before))
include h

theorem descend_leaves : descend branch [lvl] lo hi r = .ok (lo + c, r - before) := by
  rw [descend, h, Eval_ok_bind]

theorem descend_cons_cons (next : List Nat) (below : List (List Nat)) :
    descend branch (lvl :: next :: below) lo hi r =
      descend branch (next :: below) ((lo + c) * branch) (min ((lo + c + 1) * branch) next.length) (r - before) := by
  rw [descend, h, Eval_ok_bind]

end

/-- R102: the descent from a window that counts `R` finds the leaf that counts `R`, and leaves the residual
of `R` in that leaf. What a level counts before entry `c` is what the next one counts before `c * branch`. -/
theorem descend_eq_ok {branch P : Nat} (hb : 0 < branch) {lvl : List Nat} {below : List (List Nat)}
    (hchain : (lvl :: below).IsChain (IsLevelAbove branch P)) {leaves : List Nat}
    (hlast : (lvl :: below).getLast? = some leaves) {lo hi R : Nat}
    (hlo : countBefore lvl lo ≤ R) (hhi : R < countBefore lvl hi) :
    ∃ c, descend branch (lvl :: below) lo hi (R - countBefore lvl lo) = .ok (c, R - countBefore leaves c) ∧
      CountedBy leaves R c := by
  induction below generalizing lvl lo hi with
  | nil =>
    obtain ⟨j, hcall, hin⟩ := windowCall_of_lt hlo hhi
    obtain rfl : lvl = leaves := Option.some.inj hlast
    refine ⟨lo + j, ?_, hin⟩
    rw [descend_leaves hcall, Nat.sub_sub_sub_cancel_right (countBefore_mono lvl (Nat.le_add_right lo j))]
  | cons next below ih =>
    obtain ⟨j, hcall, hbefore, hpass⟩ := windowCall_of_lt hlo hhi
    rw [descend_cons_cons hcall, Nat.sub_sub_sub_cancel_right (countBefore_mono lvl (Nat.le_add_right lo j))]
    obtain ⟨⟨-, rfl⟩, hbelow⟩ := List.isChain_cons_cons.1 hchain
    rw [List.getLast?_cons_cons] at hlast
    rw [countBefore_parentCounts hb] at hbefore hpass ⊢
    exact ih hbelow hlast hbefore (by rwa [countBefore_min_length])

/-- R102: from the whole top level, the descent of a count tree finds the leaf that counts `R`. -/
theorem descend_countLevels {branch : Nat} (hb : 0 < branch) (P : Nat) {leaves : List Nat} {R : Nat}
    (hR : R < leaves.sum) :
    ∃ c, descend branch (countLevels branch P leaves) 0 ((countLevels branch P leaves).headD []).length R =
        .ok (c, R - countBefore leaves c) ∧ CountedBy leaves R c := by
  have hchain := isChain_countLevels (branch := branch) (P := P) leaves
  have hlast := getLast?_countLevels (branch := branch) (P := P) leaves
  generalize countLevels branch P leaves = V at hchain hlast ⊢
  cases V with
  | nil => cases hlast
  | cons top below =>
    have htop : top.sum = leaves.sum := sum_eq_of_isChain hb hchain hlast top List.mem_cons_self
    exact descend_eq_ok hb hchain hlast (lo := 0) (Nat.zero_le R)
      (by rwa [List.headD_cons, countBefore_of_length_le le_rfl, htop])

/-! ### Occurrences and groups -/

theorem popRange_le (m : Memory) (b : Bool) (lo hi : Nat) : popRange m b lo hi ≤ hi - lo :=
  List.countP_le_length.trans_eq List.length_range'

theorem popRange_mono (m : Memory) (b : Bool) {lo mid hi : Nat} (h₁ : lo ≤ mid) (h₂ : mid ≤ hi) :
    popRange m b lo mid ≤ popRange m b lo hi :=
  Nat.le.intro (popRange_add_popRange m b h₁ h₂)

theorem popRange_pos {m : Memory} {b : Bool} {lo hi p : Nat} (hlo : lo ≤ p) (hhi : p < hi)
    (hp : streamBit m p = b) : 0 < popRange m b lo hi :=
  List.countP_pos_iff.2 ⟨p, List.mem_range'_1.2 ⟨hlo, by omega⟩, beq_iff_eq.2 hp⟩

theorem popRange_succ_of_eq {m : Memory} {b : Bool} {lo p : Nat} (h : lo ≤ p) (hp : streamBit m p = b) :
    popRange m b lo (p + 1) = popRange m b lo p + 1 := by
  rw [popRange_succ m b h, if_pos (beq_iff_eq.2 hp)]

theorem occurrences_succ (m : Memory) (b : Bool) (n : Nat) :
    occurrences m b (n + 1) = occurrences m b n ++ if streamBit m n == b then [n] else [] := by
  rw [occurrences, List.range_succ, List.filter_append, List.filter_singleton, cond_eq_ite, occurrences]

/-- R96: a position that holds `b` stands in `Q_b` at the number of such positions before it. -/
theorem getElem?_occurrences_popRange {m : Memory} {b : Bool} {n p : Nat} (hp : p < n) (hbit : streamBit m p = b) :
    (occurrences m b n)[popRange m b 0 p]? = some p := by
  induction n with
  | zero => omega
  | succ n ih =>
    rw [occurrences_succ]
    by_cases hlast : p = n
    · subst hlast
      rw [← length_occurrences]
      simp [hbit]
    · have hbefore := ih (by omega)
      exact List.getElem?_append_left (List.getElem?_eq_some_iff.1 hbefore).1 ▸ hbefore

/-- R96: `Q_b[k]` is the position in `[0, n)` that holds `b` with `k` such positions before it. -/
theorem getElem?_occurrences_iff {m : Memory} {b : Bool} {n k p : Nat} :
    (occurrences m b n)[k]? = some p ↔ p < n ∧ streamBit m p = b ∧ popRange m b 0 p = k := by
  constructor
  · intro h
    obtain ⟨hp, hbit⟩ : p < n ∧ streamBit m p = b := by simpa [occurrences] using List.mem_of_getElem? h
    obtain ⟨hk, -⟩ := List.getElem?_eq_some_iff.1 h
    have hnodup : (occurrences m b n).Nodup := List.nodup_range.filter _
    exact ⟨hp, hbit, ((List.getElem?_inj hk hnodup).1 (h.trans (getElem?_occurrences_popRange hp hbit).symm)).symm⟩
  · rintro ⟨hp, hbit, rfl⟩
    exact getElem?_occurrences_popRange hp hbit

theorem length_groupPositions (q : List Nat) (P g : Nat) :
    (groupPositions q P g).length = min P (q.length - g * P) := by
  simp [groupPositions]

theorem getElem?_groupPositions (q : List Nat) {P r : Nat} (hr : r < P) (g : Nat) :
    (groupPositions q P g)[r]? = q[g * P + r]? := by
  rw [groupPositions, List.getElem?_take, if_pos hr, List.getElem?_drop]

theorem getElem?_zero_eq_headD {l : List Nat} (h : l ≠ []) : l[0]? = some (l.headD 0) := by
  cases l with
  | nil => exact absurd rfl h
  | cons x l => rfl

theorem getElem?_last_eq_getLastD {l : List Nat} (h : l ≠ []) : l[l.length - 1]? = some (l.getLastD 0) := by
  rw [← List.getLast?_eq_getElem?, List.getLast?_eq_some_getLast h, List.getLastD_eq_getLast?,
    List.getLast?_eq_some_getLast h, Option.getD_some]

section
variable {q : List Nat} {P g : Nat} (hP : 0 < P) (hg : g * P < q.length)
include hP hg

theorem groupPositions_ne_nil : groupPositions q P g ≠ [] := by
  rw [← List.length_pos_iff, length_groupPositions]
  omega

theorem getElem?_eq_headD_groupPositions : q[g * P]? = some ((groupPositions q P g).headD 0) := by
  rw [← getElem?_zero_eq_headD (groupPositions_ne_nil hP hg), getElem?_groupPositions q hP, Nat.add_zero]

theorem getElem?_eq_getLastD_groupPositions :
    q[min ((g + 1) * P) q.length - 1]? = some ((groupPositions q P g).getLastD 0) := by
  have hlen := length_groupPositions q P g
  have hnext : (g + 1) * P = g * P + P := Nat.succ_mul g P
  have hlast : min ((g + 1) * P) q.length - 1 = g * P + ((groupPositions q P g).length - 1) := by omega
  rw [← getElem?_last_eq_getLastD (groupPositions_ne_nil hP hg), getElem?_groupPositions q (by omega), hlast]

end

/-- R96: the positions `start` to `last` of `[0, n)`, both holding `b`, span `cnt` occurrences, with `first`
before them. -/
structure GroupSpan (m : Memory) (b : Bool) (n first cnt start last : Nat) : Prop where
  start_le_last : start ≤ last
  last_lt : last < n
  start_bit : streamBit m start = b
  last_bit : streamBit m last = b
  before : popRange m b 0 start = first
  within : popRange m b start (last + 1) = cnt

theorem groupSpan_groupPositions (m : Memory) (b : Bool) (n : Nat) {P g : Nat} (hP : 0 < P)
    (hg : g * P < (occurrences m b n).length) :
    GroupSpan m b n (g * P) (groupPositions (occurrences m b n) P g).length
      ((groupPositions (occurrences m b n) P g).headD 0) ((groupPositions (occurrences m b n) P g).getLastD 0) := by
  have hlen := length_groupPositions (occurrences m b n) P g
  have hnext : (g + 1) * P = g * P + P := Nat.succ_mul g P
  obtain ⟨-, hsbit, hsbefore⟩ := getElem?_occurrences_iff.1 (getElem?_eq_headD_groupPositions hP hg)
  obtain ⟨hlt, hlbit, hlbefore⟩ := getElem?_occurrences_iff.1 (getElem?_eq_getLastD_groupPositions hP hg)
  generalize (groupPositions (occurrences m b n) P g).headD 0 = start at *
  generalize (groupPositions (occurrences m b n) P g).getLastD 0 = last at *
  have hupto := popRange_succ_of_eq (Nat.zero_le last) hlbit
  have hle : start ≤ last := by
    by_contra h
    have := popRange_add_popRange m b (Nat.zero_le (last + 1)) (Nat.succ_le_of_lt (Nat.not_le.1 h))
    omega
  have hend : start ≤ last + 1 := by omega
  have := popRange_add_popRange m b (Nat.zero_le start) hend
  exact ⟨hle, hlt, hsbit, hlbit, hsbefore, by omega⟩

/-! ### The leaves -/

@[simp] theorem length_leafCounts (m : Memory) (b : Bool) (start last leaf : Nat) :
    (leafCounts m b start last leaf).length = ceilDiv (last - start + 1) leaf := by
  simp [leafCounts]

section
variable (m : Memory) (b : Bool) {start last leaf j : Nat}

theorem getElem?_leafCounts (hj : j < ceilDiv (last - start + 1) leaf) :
    (leafCounts m b start last leaf)[j]? =
      some (popRange m b (start + j * leaf) (min (start + (j + 1) * leaf) (last + 1))) := by
  simp [leafCounts, List.getElem?_range hj]

variable (hleaf : 0 < leaf) (hle : start ≤ last)
include hleaf hle

/-- R99: the leaves partition the span from `START` on. -/
theorem countBefore_leafCounts (j : Nat) :
    countBefore (leafCounts m b start last leaf) j = popRange m b start (min (start + j * leaf) (last + 1)) := by
  induction j with
  | zero => simp [Nat.le_succ_of_le hle]
  | succ j ih =>
    by_cases hj : j < ceilDiv (last - start + 1) leaf
    · have hspan : j * leaf < last - start + 1 := (lt_ceilDiv_iff hleaf j).1 hj
      have hmin : min (start + j * leaf) (last + 1) = start + j * leaf := by omega
      have hnext : (j + 1) * leaf = j * leaf + leaf := Nat.succ_mul j leaf
      rw [countBefore_succ (getElem?_leafCounts m b hj), ih, hmin]
      exact popRange_add_popRange m b (by omega) (by omega)
    · have hlen : (leafCounts m b start last leaf).length ≤ j := by simpa using hj
      have hspan : last - start + 1 ≤ j * leaf := by simpa [lt_ceilDiv_iff hleaf] using hj
      have hnext : (j + 1) * leaf = j * leaf + leaf := Nat.succ_mul j leaf
      have hend : min (start + (j + 1) * leaf) (last + 1) = min (start + j * leaf) (last + 1) := by omega
      rw [countBefore_of_length_le (hlen.trans (Nat.le_succ j)), ← countBefore_of_length_le hlen, ih, hend]

end

/-- R100: the leaves of a group have its `CNT` as their total. -/
theorem GroupSpan.sum_leafCounts {m : Memory} {b : Bool} {n first cnt start last leaf : Nat}
    (h : GroupSpan m b n first cnt start last) (hleaf : 0 < leaf) : (leafCounts m b start last leaf).sum = cnt := by
  obtain ⟨hle, -, -, -, -, hwithin⟩ := h
  have hend := le_ceilDiv_mul hleaf (last - start + 1)
  have hmin : min (start + ceilDiv (last - start + 1) leaf * leaf) (last + 1) = last + 1 := by omega
  rw [← countBefore_of_length_le (length_leafCounts m b start last leaf).le, countBefore_leafCounts m b hleaf hle,
    hmin, hwithin]

/-- R102: the leaf that counts `R` starts within the span, and its own count is above the residual. -/
theorem CountedBy.leaf {m : Memory} {b : Bool} {start last leaf R c : Nat} (hleaf : 0 < leaf) (hle : start ≤ last)
    (hc : CountedBy (leafCounts m b start last leaf) R c) :
    start + c * leaf ≤ last ∧
      popRange m b start (start + c * leaf) = countBefore (leafCounts m b start last leaf) c ∧
      R - countBefore (leafCounts m b start last leaf) c <
        popRange m b (start + c * leaf) (min (start + c * leaf + leaf) (last + 1)) := by
  obtain ⟨hlow, hhigh⟩ := hc
  have hc := lt_length_of_countBefore_lt (hlow.trans_lt hhigh)
  rw [length_leafCounts] at hc
  have hspan : c * leaf < last - start + 1 := (lt_ceilDiv_iff hleaf c).1 hc
  have hmin : min (start + c * leaf) (last + 1) = start + c * leaf := by omega
  have hnext : start + (c + 1) * leaf = start + c * leaf + leaf := by rw [Nat.succ_mul, Nat.add_assoc]
  rw [countBefore_succ (getElem?_leafCounts m b hc), hnext] at hhigh
  refine ⟨by omega, ?_, by omega⟩
  rw [countBefore_leafCounts m b hleaf hle, hmin]

theorem leafCounts_le (m : Memory) (b : Bool) (start last leaf : Nat) :
    ∀ x ∈ leafCounts m b start last leaf, x ≤ leaf := by
  intro x hx
  obtain ⟨j, -, rfl⟩ := List.mem_map.1 hx
  have hnext : (j + 1) * leaf = j * leaf + leaf := Nat.succ_mul j leaf
  exact (popRange_le _ _ _ _).trans (by omega)

/-- R99: the leaf of a position of the span that holds `b` has a count of at least 1. -/
theorem exists_leafCounts_pos {m : Memory} {b : Bool} {start last leaf p : Nat} (hleaf : 0 < leaf)
    (hstart : start ≤ p) (hlast : p ≤ last) (hp : streamBit m p = b) :
    ∃ x, (leafCounts m b start last leaf)[(p - start) / leaf]? = some x ∧ 1 ≤ x := by
  have hj : (p - start) / leaf < ceilDiv (last - start + 1) leaf := by
    rw [ceilDiv_succ hleaf]
    exact Nat.lt_succ_of_le (Nat.div_le_div_right (Nat.sub_le_sub_right hlast start))
  refine ⟨_, getElem?_leafCounts m b hj, popRange_pos (p := p) ?_ ?_ hp⟩
  · have := Nat.div_mul_le_self (p - start) leaf
    omega
  · have := Nat.lt_mul_div_succ (p - start) hleaf
    rw [Nat.mul_comm] at this
    omega

/-! ### The leaf read -/

/-- R103: the table entry of a leaf's read, complemented for `b = 0`, counts the positions of the range read
that hold `b`, up to the column. -/
theorem rankTable_readRange (m : Memory) (b : Bool) (p len k : Nat) :
    rankTable (readRange m p len (!b)) k = popRange m b p (p + min k len) := by
  induction k with
  | zero => simp [rankTable_eq_count]
  | succ k ih =>
    rw [rankTable_succ, ih, testBit_readRange]
    by_cases hk : k < len
    · have hmin : min (k + 1) len = k + 1 := Nat.min_eq_left hk
      rw [hmin, Nat.min_eq_left hk.le, ← Nat.add_assoc, popRange_succ m b (Nat.le_add_right p k)]
      cases b <;> simp [hk]
    · have hmin : min (k + 1) len = min k len := by omega
      simp [hk, hmin]

theorem popcount_readRange (m : Memory) (b : Bool) (p len : Nat) :
    popcount (readRange m p len (!b)) = popRange m b p (p + len) := by
  rw [popcount_eq_count (readRange_lt m p len (!b)), ← rankTable_eq_count, rankTable_readRange, Nat.min_self]

/-- R79, R103: the select entry of a leaf's read exists, and finds occurrence `r` of `b` in the range read. -/
theorem exists_selectTable_readRange {m : Memory} {b : Bool} {p len r lutS n : Nat} (hlut : len ≤ lutS)
    (hn : p + len ≤ n) (hr : r < popRange m b p (p + len)) :
    ∃ t, selectTable? lutS (readRange m p len (!b)) r = some t ∧
      (occurrences m b n)[popRange m b 0 p + r]? = some (p + t) := by
  have hpop : r < popcount (readRange m p len (!b)) := popcount_readRange m b p len ▸ hr
  have hrow : readRange m p len (!b) < 2 ^ lutS :=
    (readRange_lt m p len (!b)).trans_le (Nat.pow_le_pow_right (by decide) hlut)
  have hcolumn : r < lutS := by
    have := popRange_le m b p (p + len)
    omega
  refine ⟨_, selectTable?_eq_some hrow hcolumn, ?_⟩
  have hbit := testBit_selectTable hpop hrow
  have hrank := rankTable_selectTable hpop hrow
  generalize selectTable lutS (readRange m p len (!b)) r = t at hbit hrank ⊢
  rw [testBit_readRange, Bool.and_eq_true, decide_eq_true_eq] at hbit
  obtain ⟨ht, hbit⟩ := hbit
  rw [rankTable_readRange, Nat.min_eq_left ht.le] at hrank
  refine getElem?_occurrences_iff.2 ⟨by omega, by cases b <;> simpa using hbit, ?_⟩
  rw [← popRange_add_popRange m b (Nat.zero_le p) (Nat.le_add_right p t), hrank]

/-! ### The select index in BUILT -/

theorem toNat_ofNat_configured {r : Word} {default : Nat} (h : default < 2 ^ 64) :
    (BitVec.ofNat 64 (configured r default)).toNat = configured r default :=
  Nat.mod_eq_of_lt (configured_lt h)

/-- R95: `lg` is at most 64, the width of `LEN`. -/
theorem selLg_le (len : Word) : selLg len.toNat ≤ 64 := by
  unfold selLg bitlen fl2
  split
  · decide
  · next hne =>
    have := (Nat.log2_lt hne).2 len.isLt
    omega

theorem selLg_pos (n : Nat) : 0 < selLg n := Nat.lt_of_lt_of_le Nat.one_pos (Nat.le_max_left 1 _)

theorem selP_pos (cfg : ParamRegs) (n : Nat) : 0 < selP cfg n := by
  unfold selP configured
  split
  · exact Nat.pow_pos (selLg_pos n)
  · next hne => exact Nat.pos_of_ne_zero fun h => hne (BitVec.eq_of_toNat_eq h)

section
variable {s : State} (hinv : Inv s) (hb : s.status.phase = .built)
include hinv hb

theorem Inv.selectLegal_parameters :
    selectLegal s.hw.lutS (selBranch s.cfg s.array.len.toNat) (selLeaf s.hw s.cfg) := by
  obtain ⟨-, ⟨-, hselect⟩, -⟩ := hinv.builtIndex hb
  exact hselect

/-! R95: each default is small, at most `64^4`, so no register loses a bit of its parameter. -/

theorem Inv.toNat_eff_selP : s.index.eff.selP.toNat = selP s.cfg s.array.len.toNat := by
  have hdefault : selLg s.array.len.toNat ^ 2 ≤ 64 ^ 2 := Nat.pow_le_pow_left (selLg_le _) 2
  rw [hinv.index_eq hb]
  exact toNat_ofNat_configured (by omega)

theorem Inv.toNat_eff_selDmax : s.index.eff.selDmax.toNat = selDmax s.cfg s.array.len.toNat := by
  have hdefault : selLg s.array.len.toNat ^ 4 ≤ 64 ^ 4 := Nat.pow_le_pow_left (selLg_le _) 4
  rw [hinv.index_eq hb]
  exact toNat_ofNat_configured (by omega)

theorem Inv.toNat_eff_selBranch : s.index.eff.selBranch.toNat = selBranch s.cfg s.array.len.toNat := by
  have hroot : icbrt (selLg s.array.len.toNat) ≤ 64 := (Nat.findGreatest_le _).trans (selLg_le _)
  rw [hinv.index_eq hb]
  exact toNat_ofNat_configured (by omega)

theorem Inv.toNat_eff_selLeaf : s.index.eff.selLeaf.toNat = selLeaf s.hw s.cfg := by
  have hlut := hinv.lutS_le
  rw [hinv.index_eq hb]
  exact toNat_ofNat_configured (by omega)

theorem Inv.eff_selP_pos : 0 < s.index.eff.selP.toNat := hinv.toNat_eff_selP hb ▸ selP_pos _ _

/-- R95: the registers hold a legal branching factor and leaf width. -/
theorem Inv.selectLegal_eff : selectLegal s.hw.lutS s.index.eff.selBranch.toNat s.index.eff.selLeaf.toNat := by
  rw [hinv.toNat_eff_selBranch hb, hinv.toNat_eff_selLeaf hb]
  exact hinv.selectLegal_parameters hb

theorem Inv.dir_eq (b : Bool) : s.index.dir b =
    selectDir s.array.mem b s.array.len.toNat s.index.eff.selP.toNat s.index.eff.selDmax.toNat
      s.index.eff.selBranch.toNat s.index.eff.selLeaf.toNat := by
  rw [hinv.toNat_eff_selP hb, hinv.toNat_eff_selDmax hb, hinv.toNat_eff_selBranch hb, hinv.toNat_eff_selLeaf hb,
    hinv.index_eq hb]
  cases b <;> rfl

/-- R96: a population is at most `LEN`, so its register loses nothing. -/
theorem Inv.toNat_pop (b : Bool) :
    (s.index.pop b).toNat = (occurrences s.array.mem b s.array.len.toNat).length := by
  have hlt : (occurrences s.array.mem b s.array.len.toNat).length < 2 ^ 64 :=
    (List.length_filter_le _ _).trans_lt (List.length_range.trans_lt s.array.len.isLt)
  rw [hinv.index_eq hb]
  cases b <;> exact Nat.mod_eq_of_lt hlt

/-- R103: the read of a leaf that starts within the stored bits does not fault, and its select entry finds
the occurrence of the residual. -/
theorem Inv.exists_leafPosition {b : Bool} {start c r : Nat}
    (hn : start + c * s.index.eff.selLeaf.toNat ≤ s.array.len.toNat)
    (hr : r < popRange s.array.mem b (start + c * s.index.eff.selLeaf.toNat)
      (min (start + c * s.index.eff.selLeaf.toNat + s.index.eff.selLeaf.toNat) s.array.len.toNat)) :
    ∃ p, leafPosition s b start c r = .ok p ∧ (occurrences s.array.mem b s.array.len.toNat)[popRange s.array.mem b 0
      (start + c * s.index.eff.selLeaf.toNat) + r]? = some p := by
  obtain ⟨-, -, hleaf⟩ := hinv.selectLegal_eff hb
  have hlut := hinv.lutS_le
  have hnbits := nbits_of_unit (hinv.unit_eq_one hb)
  simp only [leafPosition]
  generalize start + c * s.index.eff.selLeaf.toNat = x at hn hr ⊢
  have hend : x + (min (x + s.index.eff.selLeaf.toNat) s.array.len.toNat - x) =
      min (x + s.index.eff.selLeaf.toNat) s.array.len.toNat := by omega
  obtain ⟨t, ht, hocc⟩ := exists_selectTable_readRange (lutS := s.hw.lutS) (n := s.array.len.toNat) (by omega)
    (hend.trans_le (Nat.min_le_right _ _)) (hend.symm ▸ hr)
  have hread := extract_eq_readRange (a := s.array) (start := x) (stop := x + s.index.eff.selLeaf.toNat)
    (by omega) (by omega) (!b)
  rw [hnbits] at hread
  exact ⟨x + t, by rw [hread, Eval_ok_bind, ht, entry_some, Eval_ok_bind, Eval_pure], hocc⟩

/-- R102, R103: the leaf that counts `R` holds occurrence `first + R`. The read of the leaf may see occurrences
after it, of the next group, but none before it. -/
theorem Inv.leafPosition_of_countedBy {b : Bool} {first cnt start last R c : Nat}
    (hspan : GroupSpan s.array.mem b s.array.len.toNat first cnt start last)
    (hc : CountedBy (leafCounts s.array.mem b start last s.index.eff.selLeaf.toNat) R c) :
    ∃ p, leafPosition s b start c
        (R - countBefore (leafCounts s.array.mem b start last s.index.eff.selLeaf.toNat) c) = .ok p ∧
      (occurrences s.array.mem b s.array.len.toNat)[first + R]? = some p := by
  obtain ⟨-, hpos, -⟩ := hinv.selectLegal_eff hb
  obtain ⟨hle, hlast, -, -, hbefore, -⟩ := hspan
  obtain ⟨hx, hprefix, hr⟩ := hc.leaf hpos hle
  obtain ⟨hlow, -⟩ := hc
  obtain ⟨p, hp, hocc⟩ := hinv.exists_leafPosition hb (by omega)
    (hr.trans_le (popRange_mono _ _ (by omega) (by omega : _ ≤ min _ s.array.len.toNat)))
  refine ⟨p, hp, ?_⟩
  rw [← hocc, ← popRange_add_popRange _ _ (Nat.zero_le start) (Nat.le_add_right _ _), hbefore, hprefix,
    Nat.add_assoc, Nat.add_sub_cancel' hlow]

end

/-! ### The directory -/

@[simp] theorem length_selectDir (m : Memory) (b : Bool) (n P dmax branch leaf : Nat) :
    (selectDir m b n P dmax branch leaf).length = ceilDiv (occurrences m b n).length P := by
  simp [selectDir, groupCount]

theorem getElem?_selectDir {m : Memory} {b : Bool} {n P g : Nat} (dmax branch leaf : Nat)
    (hg : g < ceilDiv (occurrences m b n).length P) :
    (selectDir m b n P dmax branch leaf)[g]? =
      some (groupRecord m b P dmax branch leaf (groupPositions (occurrences m b n) P g)) := by
  simp [selectDir, groupCount, List.getElem?_range hg]

/-- Settles O31: the record of group `g` is made of the occurrences from `g * P` on; the leaves of `START` and
`LAST` hold an occurrence each. -/
theorem directoryHoldsTheGroups : Obligations.DirectoryHoldsTheGroups := by
  unfold Obligations.DirectoryHoldsTheGroups
  intro s b n P dm lf q hinv hb hn hP hdm hlf (hq : q = occurrences s.array.mem b n)
  subst hn hP hdm hlf hq
  have hP := hinv.eff_selP_pos hb
  obtain ⟨-, hleaf, -⟩ := hinv.selectLegal_eff hb
  rw [hinv.dir_eq hb]
  refine ⟨hinv.toNat_pop hb b, length_selectDir .., fun g hg => ?_⟩
  have hstart := (lt_ceilDiv_iff hP g).1 hg
  refine ⟨_, getElem?_selectDir _ _ _ hg, getElem?_eq_headD_groupPositions hP hstart,
    getElem?_eq_getLastD_groupPositions hP hstart, length_groupPositions .., fun hwide => ?sparse,
    fun hnarrow => ?dense⟩
  case sparse =>
    have hcnt := (length_groupPositions (occurrences s.array.mem b s.array.len.toNat) s.index.eff.selP.toNat g).trans_le
      (Nat.min_le_left _ _)
    exact ⟨_, if_pos hwide, rfl, fun r hr => getElem?_groupPositions _ (Nat.lt_of_lt_of_le hr hcnt) g⟩
  case dense =>
    obtain ⟨hle, -, hfirst, hlast, -, -⟩ := groupSpan_groupPositions s.array.mem b s.array.len.toNat hP hstart
    refine ⟨_, _, if_neg (Nat.not_lt.2 hnarrow), getLast?_countLevels _, length_leafCounts .., fun j hj =>
      getElem?_leafCounts _ _ (length_leafCounts .. ▸ hj), leafCounts_le _ _ _ _ _, ?head, ?last⟩
    case head =>
      rw [List.head?_eq_getElem?]
      simpa using exists_leafCounts_pos hleaf le_rfl hle hfirst
    case last =>
      rw [List.getLast?_eq_getElem?, length_leafCounts, ceilDiv_succ hleaf, Nat.add_sub_cancel]
      exact exists_leafCounts_pos hleaf hle le_rfl hlast

/-! ### SELECT1 and SELECT0 -/

section
variable {s : State} {b : Bool} {g : Nat} {d : Group} (hd : (s.index.dir b)[g]? = some d)
include hd

theorem selectGroup_of_sparse {pos : List Nat} (hstore : d.store = .sparse pos) (r : Nat) :
    selectGroup s b g r = entry pos[r]? := by
  rw [selectGroup, hd, entry_some, Eval_ok_bind, hstore]

theorem selectGroup_of_dense {levels : List (List Nat)} (hstore : d.store = .dense levels) {r c r' : Nat}
    (hdescend : descend s.index.eff.selBranch.toNat levels 0 (levels.headD []).length r = .ok (c, r')) :
    selectGroup s b g r = leafPosition s b d.start c r' := by
  rw [selectGroup, hd, entry_some, Eval_ok_bind, hstore]
  exact congrArg (· >>= _) hdescend

end

/-- R102: the mux finds occurrence `r` of group `g` on either path. -/
theorem selectGroup_eq_ok {s : State} (hinv : Inv s) (hb : s.status.phase = .built) (b : Bool) {g r : Nat}
    (hr : r < s.index.eff.selP.toNat)
    (hocc : g * s.index.eff.selP.toNat + r < (occurrences s.array.mem b s.array.len.toNat).length) :
    ∃ q, selectGroup s b g r = .ok q ∧
      (occurrences s.array.mem b s.array.len.toNat)[g * s.index.eff.selP.toNat + r]? = some q := by
  have hP := hinv.eff_selP_pos hb
  have hstart : g * s.index.eff.selP.toNat < (occurrences s.array.mem b s.array.len.toNat).length := by omega
  have hd : (s.index.dir b)[g]? = some _ :=
    hinv.dir_eq hb b ▸ getElem?_selectDir _ _ _ ((lt_ceilDiv_iff hP g).2 hstart)
  have hspan := groupSpan_groupPositions s.array.mem b s.array.len.toNat hP hstart
  have hget := getElem?_groupPositions (occurrences s.array.mem b s.array.len.toNat) hr g
  have hlen := length_groupPositions (occurrences s.array.mem b s.array.len.toNat) s.index.eff.selP.toNat g
  generalize groupPositions (occurrences s.array.mem b s.array.len.toNat) s.index.eff.selP.toNat g = pos at *
  have hcnt : r < pos.length := by omega
  by_cases hwide : s.index.eff.selDmax.toNat < pos.getLastD 0 - pos.headD 0 + 1
  · rw [selectGroup_of_sparse hd (if_pos hwide), ← hget, List.getElem?_eq_getElem hcnt]
    exact ⟨_, entry_some _, rfl⟩
  · obtain ⟨hbranch, hleaf, -⟩ := hinv.selectLegal_eff hb
    obtain ⟨c, hdescend, hc⟩ := descend_countLevels (Nat.zero_lt_of_lt hbranch) s.index.eff.selP.toNat
      (hcnt.trans_eq (hspan.sum_leafCounts hleaf).symm)
    rw [selectGroup_of_dense hd (if_neg hwide) hdescend]
    exact hinv.leafPosition_of_countedBy hb hspan hc

section
variable {s : State} {b : Bool}

theorem selectQuery_of_not_built (h : s.status.phase ≠ .built) : selectQuery s b = .error (.raise .notBuilt) := by
  rw [selectQuery, failIf_pos h, Eval_error_bind]

theorem selectQuery_of_ge (h : s.status.phase = .built) (hi : (s.index.pop b).toNat ≤ s.op0) :
    selectQuery s b = .error (.raise .selectIndex) := by
  rw [selectQuery, failIf_neg (not_not.2 h), Eval_ok_bind, failIf_pos hi, Eval_error_bind]

theorem selectQuery_of_lt (h : s.status.phase = .built) (hi : s.op0 < (s.index.pop b).toNat) :
    selectQuery s b = selectLookup s b s.op0 := by
  rw [selectQuery, failIf_neg (not_not.2 h), Eval_ok_bind, failIf_neg (Nat.not_le.2 hi), Eval_ok_bind]

theorem exec_selectOf (s : State) (b : Bool) :
    exec (selectOf b) s = runCommand (selectOf b) s (resultOf s (selectQuery s b)) := by
  cases b <;> rfl

theorem select_raises {c : FaultCode} (hf : s.status.phase ≠ .faulted)
    (h : selectQuery s b = .error (.raise c)) : Raises (selectOf b) s c := by
  rw [Raises, exec_selectOf, h]
  exact runCommand_of_raise hf _ (resultOf_error s _)

/-- R104 to R107: below the population, SELECT of `b` writes the occurrence that the group lookup finds. -/
theorem select_writes (hinv : Inv s) (hb : s.status.phase = .built) (hi : s.op0 < (s.index.pop b).toNat) :
    ∃ q, selectLookup s b s.op0 = .ok q ∧ (occurrences s.array.mem b s.array.len.toNat)[s.op0]? = some q ∧
      exec (selectOf b) s = .next (s.setResult (BitVec.ofNat 64 q)) := by
  have hsplit : s.op0 / s.index.eff.selP.toNat * s.index.eff.selP.toNat + s.op0 % s.index.eff.selP.toNat = s.op0 :=
    Nat.div_add_mod' _ _
  obtain ⟨q, hq, hocc⟩ := selectGroup_eq_ok hinv hb b (Nat.mod_lt s.op0 (hinv.eff_selP_pos hb))
    (by rwa [hsplit, ← hinv.toNat_pop hb])
  rw [hsplit] at hocc
  refine ⟨q, hq, hocc, ?_⟩
  rw [exec_selectOf, selectQuery_of_lt hb hi, selectLookup, hq]
  exact runCommand_of_ok (by simp [hb]) _ (resultOf_ok s q)

end

/-- Settles O35, since `POP_b` is the number of occurrences of `b`. -/
theorem selectFindsTheOccurrence : Obligations.SelectFindsTheOccurrence := by
  unfold Obligations.SelectFindsTheOccurrence
  rintro s b _ hinv hb rfl (hi : s.op0 < (occurrences s.array.mem b s.array.len.toNat).length)
  obtain ⟨q, -, hocc, hexec⟩ := select_writes hinv hb (hinv.toNat_pop hb b ▸ hi)
  exact ⟨q, hocc, hexec⟩

/-- Settles O36, by the two checks in order and then the lookup. -/
theorem selectChecksThenLooksUp : Obligations.SelectChecksThenLooksUp := by
  unfold Obligations.SelectChecksThenLooksUp
  rintro s b _ rfl
  refine ⟨fun h => ?notBuilt, fun h hi => ?index, fun hinv h hi => ?lookup⟩
  case notBuilt =>
    obtain ⟨hb, hf⟩ := phase_ne_of_opened h
    exact select_raises hf (selectQuery_of_not_built hb)
  case index => exact select_raises (by simp [h]) (selectQuery_of_ge h hi)
  case lookup =>
    obtain ⟨q, hq, -, hexec⟩ := select_writes hinv h hi
    exact ⟨q, hq, hexec⟩

end Sys2Proof.Machine
end

section
/-! The facade and the port control, `44_facade_control.md`: rank and select are inverse (R118), the empty
sequence (R119), and NOP, GETREG and SETREG (R113 to R115) with the register numbers of `10_state.md` R37. -/

namespace Sys2Proof.Machine

/-! ### The invariant under the port and under BUILD -/

section
variable {s : State} (hinv : Inv s)
include hinv

/-! The invariant says nothing of the port registers. -/

theorem Inv.setArg0 (v : Word) : Inv (s.setArg0 v) := { hinv with }

theorem Inv.setResult (v : Word) : Inv (s.setResult v) := { hinv with }

/-- R112: a BUILD that passes its checks makes the index that the invariant asks for in BUILT. -/
theorem Inv.of_build (ho : s.status.phase = .opened) (hu : s.array.unit = 1)
    (hlegal : buildLegal s.hw s.cfg s.array.len.toNat) :
    Inv ((s.setIndex (Machine.builtIndex s.hw s.cfg s.array.mem s.array.len.toNat)).setPhase .built) :=
  { hinv with
    faultRecorded := iff_of_false nofun (mt hinv.faultRecorded.2 (phase_ne_of_opened ho).2)
    openEmpty := nofun
    builtIndex := fun _ => ⟨hu, hlegal, rfl⟩ }

end

/-! ### Rank and select -/

section
variable {s : State} (hinv : Inv s) (hb : s.status.phase = .built)
include hinv hb

/-- R96: there are no more occurrences of `b` than elements. -/
theorem Inv.toNat_pop_le (b : Bool) : (s.index.pop b).toNat ≤ s.array.len.toNat := by
  rw [hinv.toNat_pop hb, length_occurrences]
  exact popRange_le _ b 0 _

/-- R92: RANK of `b` writes the number of bits `b` below `i`. -/
theorem rank_writes_popRange (b : Bool) {i : Nat} (hop : s.op0 = i) (hi : i ≤ s.array.len.toNat) :
    exec (rankOf b) s = .next (s.setResult (BitVec.ofNat 64 (popRange s.array.mem b 0 i))) := by
  obtain ⟨hrank1, hrank0, -⟩ := rankCountsTheBitsBelow s i hinv hb hop.symm hi
  cases b
  · exact hrank0
  · exact hrank1

/-- R107: SELECT of `b` writes the position that holds `b` with the operand's number of bits `b` below it. -/
theorem select_writes_position {b : Bool} {p : Nat} (hp : p < s.array.len.toNat) (hbit : streamBit s.array.mem p = b)
    (hop : s.op0 = popRange s.array.mem b 0 p) :
    exec (selectOf b) s = .next (s.setResult (BitVec.ofNat 64 p)) := by
  have hocc : (occurrences s.array.mem b s.array.len.toNat)[s.op0]? = some p :=
    getElem?_occurrences_iff.2 ⟨hp, hbit, hop.symm⟩
  obtain ⟨hlt, -⟩ := List.getElem?_eq_some_iff.1 hocc
  obtain ⟨q, -, hq, hexec⟩ := select_writes hinv hb (hinv.toNat_pop hb b ▸ hlt)
  cases hocc.symm.trans hq
  exact hexec

end

theorem ofNat_op0 (s : State) : BitVec.ofNat 64 s.op0 = s.port.arg0 := BitVec.ofNat_toNat _ _

/-- Settles O37: RANK of `b` counts the bits `b` below a position, and SELECT of `b` finds the position that
holds `b` with that count below it. -/
theorem rankAndSelectAreInverse : Obligations.RankAndSelectAreInverse := by
  unfold Obligations.RankAndSelectAreInverse
  refine fun s b hinv hb => ⟨fun (hi : s.op0 < _) hbit => ?selectOfRank, fun hj => ?rankOfSelect⟩
  case selectOfRank =>
    have hlt : popRange s.array.mem b 0 s.op0 < 2 ^ 64 := (popRange_le _ b 0 s.op0).trans_lt (hi.trans s.array.len.isLt)
    refine ⟨_, rank_writes_popRange hinv hb b rfl hi.le, ?_⟩
    rw [← ofNat_op0 s]
    exact select_writes_position ((hinv.setResult (.ofNat 64 _)).setArg0 (.ofNat 64 _)) hb hi hbit
      (Nat.mod_eq_of_lt hlt)
  case rankOfSelect =>
    obtain ⟨q, -, hocc, hexec⟩ := select_writes hinv hb hj
    obtain ⟨hq, -, hcount⟩ := getElem?_occurrences_iff.1 hocc
    refine ⟨_, hexec, ?_⟩
    rw [← ofNat_op0 s, ← hcount]
    exact rank_writes_popRange ((hinv.setResult (.ofNat 64 q)).setArg0 (.ofNat 64 q)) hb b
      (Nat.mod_eq_of_lt (hq.trans s.array.len.isLt)) hq.le

/-- Settles O38: BUILD of the empty sequence leaves a BUILT state with the invariant, where a rank counts the bits
of an empty range and a population is at most `LEN`, which is 0. -/
theorem emptySequenceBuildsAndRanksToZero : Obligations.EmptySequenceBuildsAndRanksToZero := by
  unfold Obligations.EmptySequenceBuildsAndRanksToZero
  intro s hinv ho hu hlen hlegal
  have hn : s.array.len.toNat = 0 := congrArg BitVec.toNat hlen
  rw [← hn] at hlegal
  obtain ⟨hnb, hf⟩ := phase_ne_of_opened ho
  have hbuilt := hinv.of_build ho hu hlegal
  have hexec := runCommand_of_ok hf .build (buildEffect_of_legal hnb hu hlegal)
  refine ⟨_, hexec, rfl, fun b => ⟨?rank, fun a => ?select⟩⟩
  case rank =>
    have hrank := rank_writes_popRange (hbuilt.setArg0 0) rfl b (i := 0) rfl (Nat.zero_le _)
    rwa [popRange_self] at hrank
  case select =>
    have hpop := (hbuilt.setArg0 a).toNat_pop_le rfl b
    exact select_raises nofun (selectQuery_of_ge rfl ((hpop.trans hn.le).trans (Nat.zero_le _)))

/-! ### Register numbers -/

/-- R37: a number reaches the register that has it, and no other. -/
theorem regOfNumber_eq_some_iff {n : Nat} {r : RegName} : regOfNumber n = some r ↔ n = regNumber r := by
  constructor
  · intro h
    have hp := List.find?_some h
    exact (beq_iff_eq.1 hp).symm
  · rintro rfl
    cases r <;> rfl

theorem regOfNumber_toNat_eq_some_iff {a : Word} {r : RegName} :
    regOfNumber a.toNat = some r ↔ BitVec.ofNat 64 (regNumber r) = a := by
  have hlt : regNumber r < 2 ^ 64 := by cases r <;> decide
  rw [regOfNumber_eq_some_iff, ← BitVec.toNat_inj, BitVec.toNat_ofNat, Nat.mod_eq_of_lt hlt, eq_comm]

theorem mem_regNames (r : RegName) : r ∈ regNames := by cases r <;> decide

/-! ### GETREG -/

/-- R37, R114: each register number with the value that GETREG reads. -/
def readTable (s : State) : List (Word × Word) :=
  regNames.map fun r => (BitVec.ofNat 64 (regNumber r), regValue s r)

theorem mem_readTable_iff {s : State} {a x : Word} :
    (a, x) ∈ readTable s ↔ ∃ r, regOfNumber a.toNat = some r ∧ regValue s r = x := by
  simp [readTable, mem_regNames, regOfNumber_toNat_eq_some_iff]

theorem exec_getreg_of_some {s : State} {r : RegName} (h : regOfNumber s.op0 = some r) :
    exec .getreg s = .next (s.setResult (regValue s r)) := by
  rw [exec, execGetreg, getregEffect, h, conclude]

theorem exec_getreg_of_none {s : State} (h : regOfNumber s.op0 = none) :
    exec .getreg s = .next (raiseFault .regAccess (encode .getreg) s) := by
  rw [exec, execGetreg, getregEffect, h, conclude]

/-- Settles O41: the statement's list is the table of the registers' numbers and values. -/
theorem getregReadsEveryRegister : Obligations.GetregReadsEveryRegister := by
  unfold Obligations.GetregReadsEveryRegister
  intro s regs hregs
  obtain rfl : regs = readTable s := hregs
  refine ⟨fun x hx => ?read, fun hreserved => ?reserved⟩
  case read =>
    obtain ⟨r, hr, rfl⟩ := mem_readTable_iff.1 hx
    exact exec_getreg_of_some hr
  case reserved =>
    have hnone : regOfNumber s.op0 = none :=
      Option.eq_none_iff_forall_ne_some.2 fun r hr => hreserved _ (mem_readTable_iff.2 ⟨r, hr, rfl⟩)
    rw [Raises, exec_getreg_of_none hnone]
    exact ⟨fun h => congrArg _ (raiseFault_of_not_faulted s h _ _),
      fun h => congrArg _ (raiseFault_of_faulted s h _ _)⟩

/-! ### SETREG and NOP -/

/-- R37, R115: each writable register number with the configuration that SETREG leaves. -/
def writeTable (cfg : ParamRegs) (v : Word) : List (Word × ParamRegs) :=
  regNames.filterMap fun r => (cfgWrite cfg v r).map (BitVec.ofNat 64 (regNumber r), ·)

theorem mem_writeTable_iff {cfg c : ParamRegs} {v a : Word} :
    (a, c) ∈ writeTable cfg v ↔ (regOfNumber a.toNat).bind (cfgWrite cfg v) = some c := by
  simp [writeTable, mem_regNames, Option.bind_eq_some_iff, regOfNumber_toNat_eq_some_iff, and_comm]

section
variable {s : State}

theorem setregEffect_of_built (h : s.status.phase = .built) : setregEffect s = .error (.raise .frozen) := by
  rw [setregEffect, failIf_pos h, Eval_error_bind]

theorem setregEffect_of_some {c : ParamRegs} (h : s.status.phase ≠ .built)
    (hc : (regOfNumber s.op0).bind (cfgWrite s.cfg s.port.arg1) = some c) : setregEffect s = .ok (s.setCfg c) := by
  rw [setregEffect, failIf_neg h, Eval_ok_bind, hc]
  rfl

theorem setregEffect_of_none (h : s.status.phase ≠ .built)
    (hc : (regOfNumber s.op0).bind (cfgWrite s.cfg s.port.arg1) = none) :
    setregEffect s = .error (.raise .regAccess) := by
  rw [setregEffect, failIf_neg h, Eval_ok_bind, hc]

end

/-- Settles O42, by the phase check and then the register number: the statement's list is the table of the
writable registers' numbers and writes. -/
theorem setregWritesOneConfigurationRegister : Obligations.SetregWritesOneConfigurationRegister := by
  unfold Obligations.SetregWritesOneConfigurationRegister
  rintro s _ regs rfl hregs
  obtain rfl : regs = writeTable s.cfg s.port.arg1 := hregs
  refine ⟨fun h => ?frozen, fun h c hc => ?write, fun h hreserved => ?reserved⟩
  case frozen => exact runCommand_of_raise (by simp [h]) .setreg (setregEffect_of_built h)
  case write =>
    obtain ⟨hb, hf⟩ := phase_ne_of_opened h
    exact runCommand_of_ok hf .setreg (setregEffect_of_some hb (mem_writeTable_iff.1 hc))
  case reserved =>
    obtain ⟨hb, hf⟩ := phase_ne_of_opened h
    have hnone := Option.eq_none_iff_forall_ne_some.2 fun c hc => hreserved c (mem_writeTable_iff.2 hc)
    exact runCommand_of_raise hf .setreg (setregEffect_of_none hb hnone)

/-- Settles O40: NOP's meaning is the state it is given, with no phase check. -/
theorem nopChangesNothing : Obligations.NopChangesNothing := by
  unfold Obligations.NopChangesNothing
  exact fun _ => rfl

end Sys2Proof.Machine
end

section
/-! Faults, `60_exceptions.md`: what a command can do outside FAULTED (R126), said once for every command, and
what reaches the port in FAULTED (R131). -/

namespace Sys2Proof.Machine

/-! ### Evaluations that name their fault -/

/-- The evaluation answers a value with the property `Q`, raises a fault with a code of its own (R125), or
stops the model. -/
inductive Yields {α : Type} (Q : α → Prop) : Eval α → Prop where
  | ok {a : α} (h : Q a) : Yields Q (.ok a)
  | raise {c : FaultCode} (h : c ≠ .noFault) : Yields Q (.error (.raise c))
  | stop (f : Fault) : Yields Q (.error (.internal f))

section
variable {α β : Type}

theorem Yields.bind {R : α → Prop} {Q : β → Prop} {x : Eval α} {f : α → Eval β} (hx : Yields R x)
    (hf : ∀ a, R a → Yields Q (f a)) : Yields Q (x >>= f) := by
  cases hx with
  | ok h => exact hf _ h
  | raise h => exact .raise h
  | stop e => exact .stop e

theorem Yields.map {R : α → Prop} {Q : β → Prop} {x : Eval α} {g : α → β} (hx : Yields R x)
    (hg : ∀ a, R a → Q (g a)) : Yields Q (x.map g) := by
  cases hx with
  | ok h => exact .ok (hg _ h)
  | raise h => exact .raise h
  | stop e => exact .stop e

/-- A check that is passed leaves its negation to what follows. -/
theorem Yields.check {Q : β → Prop} {p : Prop} [Decidable p] {c : FaultCode} {f : Unit → Eval β}
    (hc : c ≠ .noFault) (hf : ¬ p → Yields Q (f ())) : Yields Q (failIf p c >>= f) := by
  by_cases h : p
  · rw [failIf_pos h]; exact .raise hc
  · rw [failIf_neg h]; exact hf h

/-- The evaluation of a query's value, of which nothing is said here but that its fault has a code. -/
abbrev YieldsValue (x : Eval α) : Prop := Yields (fun _ => True) x

theorem yieldsValue_entry (o : Option α) : YieldsValue (entry o) := by
  cases o with
  | none => exact .stop _
  | some a => exact .ok trivial

end

/-! ### The values of the queries -/

theorem yieldsValue_extract (a : PackedArray) (start stop : Nat) (inv : Bool) :
    YieldsValue (extract a start stop inv) := by
  obtain ⟨v, hv, -⟩ | h | h := extract_cases a start stop inv
  · rw [hv]; exact .ok trivial
  · rw [h]; exact .raise nofun
  · rw [h]; exact .raise nofun

theorem yieldsValue_lutRead (o : Option Nat) : YieldsValue (lutRead o) := by
  cases o with
  | none => exact .raise nofun
  | some v => exact .ok trivial

theorem yieldsValue_rankLookup (s : State) (i : Nat) : YieldsValue (rankLookup s i) :=
  .bind (yieldsValue_entry _) fun _ _ => .bind (yieldsValue_entry _) fun _ _ =>
    .bind (yieldsValue_extract _ _ _ _) fun _ _ => .bind (yieldsValue_entry _) fun _ _ => .ok trivial

theorem yieldsValue_rankQuery (s : State) : YieldsValue (rankQuery s) :=
  .check nofun fun _ => .check nofun fun _ => yieldsValue_rankLookup s _

theorem yieldsValue_windowCall (c : List Nat) (r : Nat) : YieldsValue (windowCall c r) := by
  unfold windowCall
  split
  · exact .ok trivial
  · exact .stop _

theorem yieldsValue_descend (branch : Nat) (levels : List (List Nat)) (lo hi r : Nat) :
    YieldsValue (descend branch levels lo hi r) := by
  induction levels generalizing lo hi r with
  | nil => exact .stop _
  | cons lvl below ih =>
    refine (yieldsValue_windowCall _ _).bind fun _ _ => ?_
    cases below with
    | nil => exact .ok trivial
    | cons next below => exact ih _ _ _

theorem yieldsValue_leafPosition (s : State) (b : Bool) (start c r : Nat) :
    YieldsValue (leafPosition s b start c r) :=
  (yieldsValue_extract _ _ _ _).bind fun _ _ => (yieldsValue_entry _).bind fun _ _ => .ok trivial

theorem yieldsValue_selectGroup (s : State) (b : Bool) (g r : Nat) : YieldsValue (selectGroup s b g r) := by
  refine (yieldsValue_entry _).bind fun d _ => ?_
  split
  · exact yieldsValue_entry _
  · exact (yieldsValue_descend _ _ _ _ _).bind fun _ _ => yieldsValue_leafPosition _ _ _ _ _

theorem yieldsValue_selectQuery (s : State) (b : Bool) : YieldsValue (selectQuery s b) :=
  .check nofun fun _ => .check nofun fun _ => yieldsValue_selectGroup s b _ _

/-! ### What a command can do -/

/-- The checks and writes of each command, apart from what FAULTED does with it. -/
def commandEffect (s : State) : Instr → Eval State
  | .nop => .ok s
  | .new => newEffect s
  | .push => pushEffect s
  | .len => .ok (s.setResult s.array.len)
  | .get => resultOf s (extract s.array (s.op0 * s.array.unit.toNat) ((s.op0 + 1) * s.array.unit.toNat) false)
  | .range => resultOf s (extract s.array s.op0 s.op1 false)
  | .rangen => resultOf s (extract s.array s.op0 s.op1 true)
  | .build => buildEffect s
  | .rank1 => resultOf s (rankQuery s)
  | .rank0 => resultOf s ((rankQuery s).map (fun ones => s.op0 - ones))
  | .select1 => resultOf s (selectQuery s true)
  | .select0 => resultOf s (selectQuery s false)
  | .getreg => getregEffect s
  | .setreg => setregEffect s
  | .lutr => resultOf s (lutRead (rankTable? s.hw.lutS s.op0 s.op1))
  | .luts => resultOf s (lutRead (selectTable? s.hw.lutS s.op0 s.op1))

/-- What a command that passes its checks writes: each constructor is a shape of the state that follows, with
the commands that leave it (`10_state.md` R22, R24 to R26, R30, R31) and the phase check they pass. -/
inductive CommandWrites (s : State) : Instr → State → Prop where
  | nothing : CommandWrites s .nop s
  | result {i : Instr} (hquery : i.isQuery = true) (v : Word) : CommandWrites s i (s.setResult v)
  | element (hphase : s.status.phase ≠ .built) (a : PackedArray) : CommandWrites s .push (s.setArray a)
  | config (hphase : s.status.phase ≠ .built) (c : ParamRegs) : CommandWrites s .setreg (s.setCfg c)
  | index (hphase : s.status.phase ≠ .built) (x : Index) : CommandWrites s .build ((s.setIndex x).setPhase .built)
  | emptyArray (a : PackedArray) (hlen : a.len = 0) :
      CommandWrites s .new (((s.setArray a).setIndex Index.empty).setPhase .opened)

section
variable {s : State}

/-- R24: the only phases that a command writes without a fault are OPEN and BUILT. -/
theorem CommandWrites.not_faulted {i : Instr} {t : State} (h : CommandWrites s i t)
    (hf : s.status.phase ≠ .faulted) : t.status.phase ≠ .faulted := by
  cases h with
  | nothing | result _ _ | element _ _ | config _ _ => exact hf
  | index _ _ | emptyArray _ _ => exact nofun

theorem yields_resultOf {i : Instr} (hquery : i.isQuery = true) {x : Eval Nat} (hx : YieldsValue x) :
    Yields (CommandWrites s i) (resultOf s x) :=
  hx.map fun _ _ => .result hquery _

theorem yields_newEffect : Yields (CommandWrites s .new) (newEffect s) :=
  .check nofun fun _ => .ok (.emptyArray _ rfl)

theorem yields_pushEffect : Yields (CommandWrites s .push) (pushEffect s) :=
  .check nofun fun hphase => .check nofun fun _ => .check nofun fun _ => .ok (.element hphase _)

theorem yields_buildEffect : Yields (CommandWrites s .build) (buildEffect s) :=
  .check nofun fun hphase => .check nofun fun _ => .check nofun fun _ => .ok (.index hphase _)

theorem yields_getregEffect : Yields (CommandWrites s .getreg) (getregEffect s) := by
  unfold getregEffect
  split
  · exact .ok (.result rfl _)
  · exact .raise nofun

theorem yields_setregEffect : Yields (CommandWrites s .setreg) (setregEffect s) := by
  refine .check nofun fun hphase => ?_
  split
  · exact .ok (.config hphase _)
  · exact .raise nofun

theorem yields_commandEffect (s : State) (i : Instr) : Yields (CommandWrites s i) (commandEffect s i) := by
  cases i with
  | nop => exact .ok .nothing
  | new => exact yields_newEffect
  | push => exact yields_pushEffect
  | len => exact .ok (.result rfl _)
  | get | range | rangen => exact yields_resultOf rfl (yieldsValue_extract _ _ _ _)
  | build => exact yields_buildEffect
  | rank1 => exact yields_resultOf rfl (yieldsValue_rankQuery s)
  | rank0 => exact yields_resultOf rfl ((yieldsValue_rankQuery s).map fun _ _ => trivial)
  | select1 | select0 => exact yields_resultOf rfl (yieldsValue_selectQuery s _)
  | getreg => exact yields_getregEffect
  | setreg => exact yields_setregEffect
  | lutr | luts => exact yields_resultOf rfl (yieldsValue_lutRead _)

theorem exec_of_not_faulted (hf : s.status.phase ≠ .faulted) (i : Instr) :
    exec i s = conclude i s (commandEffect s i) := by
  cases i with
  | nop | getreg => rfl
  | _ => exact runCommand_of_not_faulted hf _ _

/-- R126: outside FAULTED a command makes its writes, or takes a fault and does nothing else. -/
theorem exec_next_of_not_faulted (hf : s.status.phase ≠ .faulted) {i : Instr} {t : State} (h : exec i s = .next t) :
    CommandWrites s i t ∨ ∃ c, c ≠ .noFault ∧ t = s.faultedBy c (encode i) := by
  have hy := yields_commandEffect s i
  rw [exec_of_not_faulted hf] at h
  obtain hx | ⟨c, hx, rfl⟩ := conclude_next h
  · rw [hx] at hy
    cases hy with
    | ok hw => exact .inl hw
  · rw [hx] at hy
    cases hy with
    | raise hc => exact .inr ⟨c, hc, raiseFault_of_not_faulted s hf _ _⟩

end

/-- Settles O44: a command's writes never lead to FAULTED, so one that ends there took a fault. -/
theorem faultsRecordTheCommandAndChangeNothingElse : Obligations.FaultsRecordTheCommandAndChangeNothingElse := by
  unfold Obligations.FaultsRecordTheCommandAndChangeNothingElse
  refine ⟨fun i s t hf h ht => ?_, fun s c w hf => raiseFault_of_not_faulted s hf c w,
    fun s c w hf => raiseFault_of_faulted s hf c w⟩
  obtain hw | hfault := exec_next_of_not_faulted hf h
  · exact absurd ht (hw.not_faulted hf)
  · exact hfault

/-! ### In FAULTED -/

/-- R137: with nothing to take, the step keeps the state. -/
theorem step_of_idle {s : State} (h : s.pending = []) : step s = .next s := by
  rw [step, arrive, h]

section
variable {s : State} (hf : s.status.phase = .faulted)
include hf

/-- R67: FAULTED ignores every command but NOP, which has no effect, and GETREG, which writes `RESULT`. -/
theorem exec_of_faulted (i : Instr) : ∃ v, exec i s = .next (s.setResult v) := by
  cases i with
  | nop => exact ⟨s.port.result, rfl⟩
  | getreg =>
    cases h : regOfNumber s.op0 with
    | some r => exact ⟨_, exec_getreg_of_some h⟩
    | none => exact ⟨s.port.result, (exec_getreg_of_none h).trans (congrArg _ (raiseFault_of_faulted s hf _ _))⟩
  | _ => exact ⟨s.port.result, runCommand_of_faulted hf _ _⟩

theorem commandWrite_of_faulted (c : CmdWord) : ∃ v, commandWrite c s = .next (s.setResult v) := by
  unfold commandWrite
  split
  next i _ => exact exec_of_faulted hf i
  next => exact ⟨s.port.result, if_pos hf⟩

/-- R131: in FAULTED the host's accesses reach the port registers and the read bus only. -/
theorem applyEvent_of_faulted {e : HostEvent} (he : e ≠ .reset) :
    ∃ p b, applyEvent e s = .next { s with port := p, busRead := b } := by
  cases e with
  | write r v =>
    cases r with
    | cmd =>
      obtain ⟨x, hx⟩ := commandWrite_of_faulted hf (v.setWidth 32)
      exact ⟨_, _, hx⟩
    | _ => exact ⟨_, _, rfl⟩
  | read r => exact ⟨_, _, rfl⟩
  | reset => exact absurd rfl he

theorem step_of_faulted (hreset : ∀ rest, s.pending ≠ .reset :: rest) :
    ∃ p l b, step s = .next { s with port := p, pending := l, busRead := b } := by
  cases hp : s.pending with
  | nil => exact ⟨s.port, s.pending, s.busRead, step_of_idle hp⟩
  | cons e rest =>
    have he : e ≠ .reset := fun h => hreset rest (h ▸ hp)
    have hf' : (s.setPending rest).status.phase = .faulted := hf
    obtain ⟨p, b, happly⟩ := applyEvent_of_faulted hf' he
    exact ⟨p, rest, b, (step_of_pending hp).trans happly⟩

end

/-- Settles O45: in FAULTED a step that takes no reset leaves all but the port, and a reset is applied in
every phase. -/
theorem onlyResetLeavesFaulted : Obligations.OnlyResetLeavesFaulted := by
  unfold Obligations.OnlyResetLeavesFaulted
  refine ⟨fun s hf hreset => ?_, fun s hf => runCommand_of_faulted hf _ _, fun s rest hp => ?_⟩
  · obtain ⟨p, l, b, hstep⟩ := step_of_faulted hf hreset
    exact ⟨_, hstep, rfl, rfl, rfl, rfl⟩
  · exact ⟨_, step_of_pending hp, rfl⟩

end Sys2Proof.Machine
end

section
/-! Decoding, `30_encoding.md` R60 to R64: `decode` and `encode` are inverse to each other on command words, on
the byte lanes of the host bus (`20_memory.md` R49) and on the words of the opcode table. -/

namespace Sys2Proof.Machine

/-! ### Command words -/

/-- R62: the encoding of a command selects the command's row. -/
theorem decode_encode (i : Instr) : decode (encode i) = .ok i := by cases i <;> rfl

theorem decode_eq_ok_iff {c : CmdWord} {i : Instr} : decode c = .ok i ↔ c = encode i :=
  ⟨eq_encode_of_decode, fun h => h ▸ decode_encode i⟩

theorem mem_rows (i : Instr) : i ∈ Instr.rows := by cases i <;> decide

/-- R62: each row's command word with its command. -/
def opcodeMap : List (CmdWord × Instr) := Instr.rows.map fun i => (encode i, i)

theorem mem_opcodeMap_iff {c : CmdWord} {i : Instr} : (c, i) ∈ opcodeMap ↔ c = encode i := by
  simp [opcodeMap, mem_rows, eq_comm]

/-- Settles O9: the statement's list is the table of the rows' encodings. -/
theorem decodeReadsExactlyTheOpcodeMap : Obligations.DecodeReadsExactlyTheOpcodeMap := by
  unfold Obligations.DecodeReadsExactlyTheOpcodeMap
  exact fun c i => decode_eq_ok_iff.trans mem_opcodeMap_iff.symm

/-- Settles O11: the five words are encodings, and the two illegal ones are refused by the checks of `RSV` and of
`OP`. -/
theorem sampleWordsDecode : Obligations.SampleWordsDecode := by
  unfold Obligations.SampleWordsDecode
  exact ⟨decode_encode .push, decode_encode .build, decode_encode .select1, decode_encode .setreg,
    decode_encode .luts, rfl, rfl⟩

/-! ### Byte lanes -/

theorem natOfLanes_append_singleton (l : List Byte) (b : Byte) :
    natOfLanes (l ++ [b]) = natOfLanes l + 2 ^ (8 * l.length) * b.toNat := by
  induction l with
  | nil => simp [natOfLanes]
  | cons c l ih =>
    rw [List.cons_append, natOfLanes, natOfLanes, ih, List.length_cons, Nat.mul_succ, Nat.pow_add]
    ring

theorem length_busLanes (v : Word) : (busLanes v).length = 8 := by simp [busLanes]

/-- R49: lane `k` holds bits [8k+7:8k]. -/
theorem getElem?_busLanes (v : Word) {k : Nat} (hk : k < 8) :
    (busLanes v)[k]? = some (BitVec.ofNat 8 (v.toNat / 2 ^ (8 * k))) := by
  simp [busLanes, hk, BitVec.extractLsb', Nat.shiftRight_eq_div_pow]

/-- R49: the lowest `k` lanes hold the lowest `8k` bits. -/
theorem natOfLanes_take_busLanes (v : Word) {k : Nat} (hk : k ≤ 8) :
    natOfLanes ((busLanes v).take k) = v.toNat % 2 ^ (8 * k) := by
  induction k with
  | zero => simp [natOfLanes, Nat.mod_one]
  | succ k ih =>
    have hlength : ((busLanes v).take k).length = k := by rw [List.length_take, length_busLanes]; omega
    rw [List.take_add_one, getElem?_busLanes v hk, Option.toList_some, natOfLanes_append_singleton, ih (by omega),
      hlength, Nat.mul_succ, Nat.pow_add, Nat.mod_mul, BitVec.toNat_ofNat]

/-- Settles O8: all eight lanes hold all 64 bits. -/
theorem busLanesAreLittleEndian : Obligations.BusLanesAreLittleEndian := by
  unfold Obligations.BusLanesAreLittleEndian
  refine fun v => ⟨fun k hk => getElem?_busLanes v hk, length_busLanes v, ?_⟩
  rw [← List.take_of_length_le (length_busLanes v).le, natOfLanes_take_busLanes v le_rfl]
  exact Nat.mod_eq_of_lt v.isLt

/-- R48, R49: the decoder reads the low four lanes and leaves the rest. -/
theorem decodeBytes_take_busLanes (v : Word) (rest : List Byte) :
    decodeBytes ((busLanes v).take 4 ++ rest) = (decode (v.setWidth 32)).map (·, rest) := by
  have hword : BitVec.ofNat 32 (natOfLanes ((busLanes v).take 4)) = v.setWidth 32 :=
    BitVec.eq_of_toNat_eq (by simp [natOfLanes_take_busLanes])
  rw [← hword]
  rfl

theorem map_pair_eq_ok_iff {x : Except DecodeError Instr} {rest : List Byte} {i : Instr} :
    x.map (·, rest) = .ok (i, rest) ↔ x = .ok i := by
  cases x <;> simp [Except.map]

/-- R62: the table's word is read as the low 32 bits of a `CMD` write. -/
theorem decodeTableWord_eq_some_iff {n : Nat} {i : Instr} :
    decodeTableWord 32 n = some i ↔ decode (BitVec.ofNat 32 n) = .ok i := by
  have hword : (BitVec.ofNat 64 (n % 2 ^ 32)).setWidth 32 = BitVec.ofNat 32 n :=
    BitVec.eq_of_toNat_eq (by simp)
  have hbytes : decodeBytes (tableWordLanes 32 n) = (decode (BitVec.ofNat 32 n)).map (·, []) := by
    rw [← hword, ← decodeBytes_take_busLanes, List.append_nil]
    rfl
  rw [decodeTableWord, hbytes]
  cases decode (BitVec.ofNat 32 n) <;> simp [Except.map]

/-- Settles O10: the lanes and the table's words reach the decoder as 32-bit command words, where `decode` and
`encode` agree. -/
theorem decodeAndEncodeAgree : Obligations.DecodeAndEncodeAgree := by
  unfold Obligations.DecodeAndEncodeAgree
  refine ⟨fun c i _ => decode_eq_ok_iff, fun c i rest => ?lanes, fun n i => ?table⟩
  case lanes =>
    have hc : (c.setWidth 64).setWidth 32 = c := BitVec.eq_of_toNat_eq (by simp)
    rw [decodeBytes_take_busLanes, hc, map_pair_eq_ok_iff, decode_eq_ok_iff]
  case table =>
    rw [decodeTableWord_eq_some_iff, decode_eq_ok_iff, ← BitVec.toNat_inj, BitVec.toNat_ofNat]

end Sys2Proof.Machine
end

section
/-! The command port: the word store's bits (`20_memory.md` R40, R43), what a step makes of each thing that
arrives (`20_memory.md` R50, `30_encoding.md` R67, `70_reset_and_hazards.md`), and the `STATUS` register
(`10_state.md` R23). -/

namespace Sys2Proof.Machine

/-! ### The word store -/

/-- Settles O13: a stream bit lies in the word of its address, at its place in that word. -/
theorem streamBitIsABitOfItsWord : Obligations.StreamBitIsABitOfItsWord := by
  unfold Obligations.StreamBitIsABitOfItsWord
  intro m q
  rw [getLsbD_word m _ (Nat.mod_lt q (by decide)), Nat.div_add_mod]

/-- Settles O15, by the laws of the store write: it is canonical, and its bits and bytes are known. -/
theorem memWriteSetsExactlyItsBits : Obligations.MemWriteSetsExactlyItsBits := by
  unfold Obligations.MemWriteSetsExactlyItsBits
  exact fun m p len v hm => ⟨memWrite_wf m hm p len v, streamBit_memWrite m hm p len v,
    fun a => readByte_memWrite_of_outside m hm v⟩

/-! ### Steps -/

/-- Settles O2: the step takes the reset and applies it. -/
theorem resetInputRestoresEveryPieceOfState : Obligations.ResetInputRestoresEveryPieceOfState := by
  unfold Obligations.ResetInputRestoresEveryPieceOfState
  exact fun s rest hp => step_of_pending hp

/-- Settles O3: with no event to take, the step keeps the state. -/
theorem portWaitsWhenNothingArrives : Obligations.PortWaitsWhenNothingArrives := by
  unfold Obligations.PortWaitsWhenNothingArrives
  exact fun s => step_of_idle

/-- R48: a `CMD` write gives the engine its low 32 bits. -/
theorem step_of_cmd {s : State} {v : Word} {rest : List HostEvent} (hp : s.pending = .write .cmd v :: rest) :
    step s = commandWrite (v.setWidth 32) (s.setPending rest) := step_of_pending hp

theorem commandWrite_of_decode {c : CmdWord} {i : Instr} (h : decode c = .ok i) (s : State) :
    commandWrite c s = exec i s := by
  rw [commandWrite, h]

/-- Settles O4: the `CMD` write is taken, and its word is decoded and run. -/
theorem stepRunsTheDecodedCommand : Obligations.StepRunsTheDecodedCommand := by
  unfold Obligations.StepRunsTheDecodedCommand
  exact fun s v rest i hp hdecode => (step_of_cmd hp).trans (commandWrite_of_decode hdecode _)

section
variable {s : State} (hf : s.status.phase = .faulted)
include hf

theorem exec_of_faulted_of_ne {i : Instr} (hnop : i ≠ .nop) (hgetreg : i ≠ .getreg) : exec i s = .next s := by
  cases i with
  | nop => exact absurd rfl hnop
  | getreg => exact absurd rfl hgetreg
  | _ => exact runCommand_of_faulted hf _ _

/-- R67: FAULTED ignores the illegal words too. -/
theorem commandWrite_of_faulted_of_ne {c : CmdWord} (hnop : c ≠ encode .nop) (hgetreg : c ≠ encode .getreg) :
    commandWrite c s = .next s := by
  cases hdecode : decode c with
  | ok i =>
    have hc := eq_encode_of_decode hdecode
    rw [commandWrite_of_decode hdecode]
    exact exec_of_faulted_of_ne hf (fun h => hnop (h ▸ hc)) (fun h => hgetreg (h ▸ hc))
  | error e => rw [commandWrite, hdecode]; exact if_pos hf

end

/-- Settles O5: the two words named are the encodings of NOP and GETREG. -/
theorem faultedIgnoresAllButNopAndGetreg : Obligations.FaultedIgnoresAllButNopAndGetreg := by
  unfold Obligations.FaultedIgnoresAllButNopAndGetreg
  intro s v rest hp hf hnop hgetreg
  rw [step_of_cmd hp]
  exact commandWrite_of_faulted_of_ne (s := s.setPending rest) hf hnop hgetreg

/-- R50: an access that is no `CMD` write reaches the operand registers or the read bus, and a read reaches the
read bus only. -/
theorem applyEvent_of_access {e : HostEvent} (hcmd : ∀ v, e ≠ .write .cmd v) (hreset : e ≠ .reset) (s : State) :
    ∃ p b, applyEvent e s = .next { s with port := p, busRead := b } ∧ p.result = s.port.result ∧
      ((∃ r, e = .read r) → p = s.port) := by
  cases e with
  | write r v =>
    cases r with
    | cmd => exact absurd rfl (hcmd v)
    | _ => exact ⟨_, _, rfl, rfl, nofun⟩
  | read r => exact ⟨_, _, rfl, rfl, fun _ => rfl⟩
  | reset => exact absurd rfl hreset

/-- Settles O7: the step keeps the state when nothing arrives, and otherwise applies an access that leaves the
engine. -/
theorem onlyCommandWritesAndResetsChangeTheEngine : Obligations.OnlyCommandWritesAndResetsChangeTheEngine := by
  unfold Obligations.OnlyCommandWritesAndResetsChangeTheEngine
  intro s hcmd hreset
  cases hp : s.pending with
  | nil => exact ⟨s, step_of_idle hp, rfl, rfl, rfl, rfl, rfl, rfl, hp, nofun⟩
  | cons e rest =>
    obtain ⟨p, b, happly, hresult, hread⟩ := applyEvent_of_access (e := e)
      (fun v he => hcmd v rest (he ▸ hp)) (fun he => hreset rest (he ▸ hp)) (s.setPending rest)
    refine ⟨_, (step_of_pending hp).trans happly, rfl, rfl, rfl, rfl, rfl, hresult, rfl, fun r l hrl => ?_⟩
    cases hrl
    exact hread ⟨r, rfl⟩

/-! ### The `STATUS` register -/

theorem toNat_append_eq_add {m n : Nat} (x : BitVec m) (y : BitVec n) :
    (x ++ y).toNat = 2 ^ n * x.toNat + y.toNat := by
  rw [BitVec.toNat_append, ← Nat.shiftLeft_add_eq_or_of_lt y.isLt, Nat.shiftLeft_eq, Nat.mul_comm]

/-- R23: the fields of `STATUS`, with nothing in the reserved bits. -/
theorem toNat_word (st : Status) :
    st.word.toNat = 2 ^ 16 * st.faultCmd.toNat + 2 ^ 8 * st.fault.code.toNat + st.phase.code.toNat := by
  simp only [Status.word, toNat_append_eq_add, BitVec.toNat_zero]
  ring

/-- R23: each phase with its code. -/
def phaseTable : List (Phase × Nat) := [.opened, .built, .faulted].map fun p : Phase => (p, p.code.toNat)

/-- R125: each fault code with its number. -/
def faultTable : List (FaultCode × Nat) :=
  [.noFault, .illegalCmd, .badWidth, .overwide, .capacity, .rangeOrder, .rangeWidth, .frozen, .notBuilt, .buildUnit,
    .badConfig, .rankIndex, .selectIndex, .regAccess, .lutIndex].map fun f : FaultCode => (f, f.code.toNat)

/-- An entry of a table of values holds the value of its key. -/
theorem eq_of_mem_map_value {α : Type} {l : List α} {value : α → Nat} {a : α} {c : Nat}
    (h : (a, c) ∈ l.map fun a => (a, value a)) : value a = c := by
  obtain ⟨a', -, heq⟩ := List.mem_map.1 h
  cases heq
  rfl

/-- Settles O43: the statement's lists are the tables of the codes, and the fields are the digits of the sum. -/
theorem statusWordHoldsItsFields : Obligations.StatusWordHoldsItsFields := by
  unfold Obligations.StatusWordHoldsItsFields
  intro st
  have hphase := st.phase.code.isLt
  have hfault := st.fault.code.isLt
  have hcmd := st.faultCmd.isLt
  rw [toNat_word]
  refine ⟨fun p c (hc : (p, c) ∈ phaseTable) hp => ?phase, by omega,
    fun f c (hc : (f, c) ∈ faultTable) hf => ?fault, by omega, by omega⟩
  case phase =>
    rw [← eq_of_mem_map_value hc, ← hp]
    omega
  case fault =>
    rw [← eq_of_mem_map_value hc, ← hf]
    omega

end Sys2Proof.Machine
end

section
/-! The invariant: a step from a state that has it answers a next state (`41_lut_rom.md` R80, `43_select.md`
R102, I4), and that state has it too. Both are said once, of the evaluation of each command's checks. -/

namespace Sys2Proof.Machine

/-! ### Evaluations that do not stop the model -/

/-- The evaluation answers a value with the property `Q`, or raises a fault with a code of its own (R125): what
`Yields` says, without its case of a stop. -/
inductive Completes {α : Type} (Q : α → Prop) : Eval α → Prop where
  | ok {a : α} (h : Q a) : Completes Q (.ok a)
  | raise {c : FaultCode} (h : c ≠ .noFault) : Completes Q (.error (.raise c))

section
variable {α β : Type}

/-- A check that is passed leaves its negation to what follows. -/
theorem Completes.check {Q : β → Prop} {p : Prop} [Decidable p] {c : FaultCode} {f : Unit → Eval β}
    (hc : c ≠ .noFault) (hf : ¬ p → Completes Q (f ())) : Completes Q (failIf p c >>= f) := by
  by_cases h : p
  · rw [failIf_pos h]; exact .raise hc
  · rw [failIf_neg h]; exact hf h

theorem Completes.map {R : α → Prop} {Q : β → Prop} {x : Eval α} {g : α → β} (hx : Completes R x)
    (hg : ∀ a, R a → Q (g a)) : Completes Q (x.map g) := by
  cases hx with
  | ok h => exact .ok (hg _ h)
  | raise h => exact .raise h

/-- The evaluation of a query's value, of which nothing is said here but that it does not stop the model. -/
abbrev CompletesValue (x : Eval α) : Prop := Completes (fun _ => True) x

end

theorem completesValue_extract (a : PackedArray) (start stop : Nat) (inv : Bool) :
    CompletesValue (extract a start stop inv) := by
  obtain ⟨v, hv, -⟩ | h | h := extract_cases a start stop inv
  · rw [hv]; exact .ok trivial
  · rw [h]; exact .raise nofun
  · rw [h]; exact .raise nofun

theorem completesValue_lutRead (o : Option Nat) : CompletesValue (lutRead o) := by
  cases o with
  | none => exact .raise nofun
  | some v => exact .ok trivial

section
variable {s : State} (hinv : Inv s)
include hinv

/-- R90: only lookups in BUILT up to `LEN` pass the checks, and these find their entries. -/
theorem Inv.completesValue_rankQuery : CompletesValue (rankQuery s) := by
  by_cases hb : s.status.phase = .built
  · obtain hi | hi := Nat.lt_or_ge s.array.len.toNat s.op0
    · rw [rankQuery_of_gt hb hi]; exact .raise nofun
    · rw [rankQuery_of_le hb hi, rankLookup_eq_rankSum hinv hb hi]; exact .ok trivial
  · rw [rankQuery_of_not_built hb]; exact .raise nofun

/-- R105: only lookups in BUILT below the population pass the checks, and their descent ends. -/
theorem Inv.completesValue_selectQuery (b : Bool) : CompletesValue (selectQuery s b) := by
  by_cases hb : s.status.phase = .built
  · obtain hi | hi := Nat.lt_or_ge s.op0 (s.index.pop b).toNat
    · obtain ⟨q, hq, -⟩ := select_writes hinv hb hi
      rw [selectQuery_of_lt hb hi, hq]; exact .ok trivial
    · rw [selectQuery_of_ge hb hi]; exact .raise nofun
  · rw [selectQuery_of_not_built hb]; exact .raise nofun

end

/-! ### What keeps the invariant -/

@[simp] theorem streamBit_nil (q : Nat) : streamBit [] q = false := by simp [streamBit]

/-- R145: the hardwired parameters are the only premise, since a reset gives every other part of the state its
value after reset. -/
theorem inv_resetState {s : State} (hhw : s.hw.wellFormed = true) : Inv (resetState s) where
  hwLegal := hhw
  unitBound := by show (1 : BitVec 7).toNat ≤ 64; decide
  memCanonical := reset_mem_wf
  memBeyond := fun q _ => streamBit_nil q
  capacity := Nat.zero_le _
  faultRecorded := iff_of_false nofun (not_not.2 rfl)
  noFaultCmd := fun _ => rfl
  openEmpty := fun _ => rfl
  builtIndex := nofun

/-- Settles O49: the reset state is what a reset makes of itself. -/
theorem invariantHoldsAtReset : Obligations.InvariantHoldsAtReset := by
  unfold Obligations.InvariantHoldsAtReset
  exact inv_resetState (s := State.reset) (by decide)

theorem phase_eq_opened {s : State} (hb : s.status.phase ≠ .built) (hf : s.status.phase ≠ .faulted) :
    s.status.phase = .opened := by
  cases h : s.status.phase with
  | opened => rfl
  | built => exact absurd h hb
  | faulted => exact absurd h hf

theorem toNat_len_pushedArray {s : State} (hc : ¬ PushOverflows s) :
    (pushedArray s).len.toNat = s.array.len.toNat + 1 := by
  obtain ⟨hlen, -⟩ := not_or.1 hc
  exact BitVec.toNat_add_of_lt (by have := s.array.len.isLt; simp; omega)

section
variable {s : State} (hinv : Inv s)
include hinv

theorem Inv.setArg1 (v : Word) : Inv (s.setArg1 v) := { hinv with }

theorem Inv.setBusRead (v : Word) : Inv (s.setBusRead v) := { hinv with }

theorem Inv.setPending (l : List HostEvent) : Inv (s.setPending l) := { hinv with }

theorem Inv.faultedBy {c : FaultCode} (hc : c ≠ .noFault) (w : CmdWord) : Inv (s.faultedBy c w) :=
  { hinv with
    faultRecorded := iff_of_true rfl hc
    noFaultCmd := fun h => absurd h hc
    openEmpty := nofun
    builtIndex := nofun }

theorem Inv.fault_eq_noFault (hf : s.status.phase ≠ .faulted) : s.status.fault = .noFault :=
  not_not.1 (mt hinv.faultRecorded.2 hf)

/-- R30: the invariant speaks of the configuration in BUILT only. -/
theorem Inv.setCfg (hb : s.status.phase ≠ .built) (c : ParamRegs) : Inv (s.setCfg c) :=
  { hinv with builtIndex := fun h => absurd h hb }

/-- R71: the array of NEW holds no bit and the index is empty. -/
theorem Inv.of_new (hf : s.status.phase ≠ .faulted) (h : s.op0 ≤ 64) :
    Inv (((s.setArray { unit := .ofNat 7 s.op0, len := 0, mem := [] }).setIndex Index.empty).setPhase .opened) :=
  { hinv with
    unitBound := (Nat.mod_le _ _).trans h
    memCanonical := reset_mem_wf
    memBeyond := fun q _ => streamBit_nil q
    capacity := (Nat.zero_mul _).trans_le (Nat.zero_le _)
    faultRecorded := iff_of_false nofun (not_not.2 (hinv.fault_eq_noFault hf))
    openEmpty := fun _ => rfl
    builtIndex := nofun }

/-- R72: PUSH writes the bits from the old `NBITS` to the new one. -/
theorem Inv.setArray_pushedArray (hb : s.status.phase ≠ .built) (hc : ¬ PushOverflows s) :
    Inv (s.setArray (pushedArray s)) := by
  obtain ⟨-, hspace⟩ := not_or.1 hc
  have hnbits : (pushedArray s).nbits = s.array.len.toNat * s.array.unit.toNat + s.array.unit.toNat := by
    rw [PackedArray.nbits, toNat_len_pushedArray hc, Nat.succ_mul]
    rfl
  refine { hinv with memCanonical := ?canonical, memBeyond := ?beyond, capacity := ?capacity, builtIndex := ?built }
  case canonical => exact memWrite_wf _ hinv.memCanonical _ _ _
  case beyond =>
    intro q (hq : (pushedArray s).nbits ≤ q)
    rw [hnbits] at hq
    refine (streamBit_memWrite _ hinv.memCanonical _ _ _ q).trans ?_
    rw [if_neg (by omega)]
    exact hinv.memBeyond q (by unfold PackedArray.nbits; omega)
  case capacity =>
    show (pushedArray s).nbits ≤ _
    rw [hnbits, ← Nat.succ_mul]
    exact Nat.not_lt.1 hspace
  case built => exact fun h => absurd h hb

/-! ### Commands -/

/-- A query's only write is `RESULT`. -/
theorem Inv.completes_resultOf {x : Eval Nat} (hx : CompletesValue x) : Completes Inv (resultOf s x) :=
  hx.map fun _ _ => hinv.setResult _

theorem Inv.completes_getregEffect : Completes Inv (getregEffect s) := by
  unfold getregEffect
  split
  · exact .ok (hinv.setResult _)
  · exact .raise nofun

theorem Inv.completes_setregEffect : Completes Inv (setregEffect s) := by
  refine .check nofun fun hb => ?_
  split
  · exact .ok (hinv.setCfg hb _)
  · exact .raise nofun

theorem Inv.completes_pushEffect : Completes Inv (pushEffect s) := by
  by_cases hb : s.status.phase = .built
  · rw [pushEffect_of_built hb]; exact .raise nofun
  · rw [pushEffect_of_not_built hb]
    exact .check nofun fun _ => .check nofun fun hc => .ok (hinv.setArray_pushedArray hb hc)

section
variable (hf : s.status.phase ≠ .faulted)
include hf

theorem Inv.completes_newEffect : Completes Inv (newEffect s) :=
  .check nofun fun h => .ok (hinv.of_new hf (Nat.not_lt.1 h))

theorem Inv.completes_buildEffect : Completes Inv (buildEffect s) :=
  .check nofun fun hb => .check nofun fun hu => .check nofun fun hlegal =>
    .ok (hinv.of_build (phase_eq_opened hb hf) (not_not.1 hu) (not_not.1 hlegal))

theorem Inv.completes_commandEffect (i : Instr) : Completes Inv (commandEffect s i) := by
  cases i with
  | nop => exact .ok hinv
  | new => exact hinv.completes_newEffect hf
  | push => exact hinv.completes_pushEffect
  | len => exact .ok (hinv.setResult _)
  | get | range | rangen => exact hinv.completes_resultOf (completesValue_extract _ _ _ _)
  | build => exact hinv.completes_buildEffect hf
  | rank1 => exact hinv.completes_resultOf hinv.completesValue_rankQuery
  | rank0 => exact hinv.completes_resultOf (hinv.completesValue_rankQuery.map fun _ _ => trivial)
  | select1 | select0 => exact hinv.completes_resultOf (hinv.completesValue_selectQuery _)
  | getreg => exact hinv.completes_getregEffect
  | setreg => exact hinv.completes_setregEffect
  | lutr | luts => exact hinv.completes_resultOf (completesValue_lutRead _)

end

theorem Inv.exists_exec (i : Instr) : ∃ t, exec i s = .next t ∧ Inv t := by
  by_cases hf : s.status.phase = .faulted
  · obtain ⟨v, hv⟩ := exec_of_faulted hf i
    exact ⟨_, hv, hinv.setResult v⟩
  · have hx := hinv.completes_commandEffect hf i
    rw [exec_of_not_faulted hf]
    generalize commandEffect s i = x at hx
    cases hx with
    | ok h => exact ⟨_, rfl, h⟩
    | raise hc => exact ⟨_, congrArg _ (raiseFault_of_not_faulted s hf _ _), hinv.faultedBy hc _⟩

/-! ### Steps -/

theorem Inv.exists_commandWrite (c : CmdWord) : ∃ t, commandWrite c s = .next t ∧ Inv t := by
  unfold commandWrite
  split
  next i _ => exact hinv.exists_exec i
  next =>
    by_cases hf : s.status.phase = .faulted
    · exact ⟨s, if_pos hf, hinv⟩
    · rw [if_neg hf, raiseFault_of_not_faulted s hf]
      exact ⟨_, rfl, hinv.faultedBy (c := .illegalCmd) nofun c⟩

theorem Inv.exists_applyEvent (e : HostEvent) : ∃ t, applyEvent e s = .next t ∧ Inv t := by
  cases e with
  | write r v =>
    cases r with
    | cmd => exact hinv.exists_commandWrite (v.setWidth 32)
    | arg0 => exact ⟨_, rfl, hinv.setArg0 v⟩
    | arg1 => exact ⟨_, rfl, hinv.setArg1 v⟩
    | _ => exact ⟨s, rfl, hinv⟩
  | read r => exact ⟨_, rfl, hinv.setBusRead _⟩
  | reset => exact ⟨_, rfl, inv_resetState hinv.hwLegal⟩

/-- Every step from a state with the invariant answers a next state, which has it. -/
theorem Inv.exists_step : ∃ t, step s = .next t ∧ Inv t := by
  cases hp : s.pending with
  | nil => exact ⟨s, step_of_idle hp, hinv⟩
  | cons e rest =>
    rw [step_of_pending hp]
    exact (hinv.setPending rest).exists_applyEvent e

end

/-- Settles O51, by the step's answer. -/
theorem invariantStatesNeverStop : Obligations.InvariantStatesNeverStop := by
  unfold Obligations.InvariantStatesNeverStop
  intro s hinv
  obtain ⟨t, ht, -⟩ := hinv.exists_step
  exact ⟨t, ht⟩

/-- Settles O50: the state that the step answers has the invariant. -/
theorem invariantIsKeptByEveryStep : Obligations.InvariantIsKeptByEveryStep := by
  unfold Obligations.InvariantIsKeptByEveryStep
  intro s t hinv hstep
  obtain ⟨t', ht', hinv'⟩ := hinv.exists_step
  cases hstep.symm.trans ht'
  exact hinv'

end Sys2Proof.Machine
end

section
/-! What the commands write, `10_state.md` R22 to R31: the phases, the parts of the state, and the read-only
queries of BUILT (`20_memory.md` R56). -/

namespace Sys2Proof.Machine

/-! ### Every answer of a command -/

/-- A command that answers makes its writes, is ignored in FAULTED, or takes a fault. -/
theorem exec_next_cases {i : Instr} {s t : State} (h : exec i s = .next t) :
    CommandWrites s i t ∨ (s.status.phase = .faulted ∧ t = s) ∨
      (s.status.phase ≠ .faulted ∧ ∃ c, t = s.faultedBy c (encode i)) := by
  by_cases hf : s.status.phase = .faulted
  · by_cases hgetreg : i = .getreg
    · subst hgetreg
      obtain ⟨v, hv⟩ := exec_of_faulted hf .getreg
      cases hv.symm.trans h
      exact .inl (.result rfl v)
    · by_cases hnop : i = .nop
      · subst hnop
        cases h
        exact .inl .nothing
      · cases (exec_of_faulted_of_ne hf hnop hgetreg).symm.trans h
        exact .inr (.inl ⟨hf, rfl⟩)
  · obtain hw | ⟨c, -, ht⟩ := exec_next_of_not_faulted hf h
    · exact .inl hw
    · exact .inr (.inr ⟨hf, c, ht⟩)

/-! ### Phases -/

/-- R24: writes that change the phase are BUILD's, which is from OPEN, and NEW's. -/
theorem CommandWrites.phase {i : Instr} {s t : State} (h : CommandWrites s i t) (hf : s.status.phase ≠ .faulted) :
    t.status.phase = s.status.phase ∨ (i = .build ∧ s.status.phase = .opened ∧ t.status.phase = .built) ∨
      (i = .new ∧ t.status.phase = .opened ∧ t.array.len = 0 ∧ t.index = Index.empty) := by
  cases h with
  | nothing | result _ _ | element _ _ | config _ _ => exact .inl rfl
  | index hb x => exact .inr (.inl ⟨rfl, phase_eq_opened hb hf, rfl⟩)
  | emptyArray a hlen => exact .inr (.inr ⟨rfl, rfl, hlen, rfl⟩)

/-- Settles O46: FAULTED leaves all but `RESULT`, and elsewhere a command takes a fault or makes its writes. -/
theorem phaseChangesOnlyByBuildNewAndFaults : Obligations.PhaseChangesOnlyByBuildNewAndFaults := by
  unfold Obligations.PhaseChangesOnlyByBuildNewAndFaults
  intro i s t h
  by_cases hf : s.status.phase = .faulted
  · obtain ⟨v, hv⟩ := exec_of_faulted hf i
    cases hv.symm.trans h
    exact .inl ⟨hf, hf⟩
  · refine .inr ⟨hf, ?_⟩
    obtain hw | ⟨c, -, rfl⟩ := exec_next_of_not_faulted hf h
    · exact .inr (hw.phase hf)
    · exact .inl rfl

/-! ### The parts of the state -/

/-- Settles O47, by the shapes of a command's writes; a command that is ignored or takes a fault writes none of the
parts named. -/
theorem onlyTheNamedCommandsWriteEachState : Obligations.OnlyTheNamedCommandsWriteEachState := by
  unfold Obligations.OnlyTheNamedCommandsWriteEachState
  intro i s t h
  obtain hw | ⟨-, rfl⟩ | ⟨-, c, rfl⟩ := exec_next_cases h
  · cases hw with
    | result hquery v => simp [Instr.writesResult, hquery]
    | nothing | element _ _ | config _ _ | index _ _ | emptyArray _ _ => simp
  · simp
  · simp

/-! ### Queries in BUILT -/

/-- Settles O48: the writes that BUILT admits are a query's, which reach `RESULT`, and NEW's. -/
theorem builtStateIsImmutable : Obligations.BuiltStateIsImmutable := by
  unfold Obligations.BuiltStateIsImmutable
  intro i s t hb h
  obtain hw | ⟨c, -, rfl⟩ := exec_next_of_not_faulted (by simp [hb]) h
  · cases hw with
    | nothing => exact ⟨rfl, fun _ => ⟨rfl, rfl⟩, nofun⟩
    | result _ v => exact ⟨rfl, fun _ => ⟨rfl, rfl⟩, fun _ => .inl rfl⟩
    | emptyArray a _ => exact ⟨rfl, fun hnew => absurd rfl hnew, nofun⟩
    | element hphase _ | config hphase _ | index hphase _ => exact absurd hb hphase
  · exact ⟨rfl, fun _ => ⟨rfl, rfl⟩, fun _ => .inr rfl⟩

/-- R56: a query outside FAULTED that takes no fault writes `RESULT` only. -/
theorem eq_setResult_of_query {i : Instr} {s t : State} (hquery : i.isQuery = true) (h : exec i s = .next t)
    (hs : s.status.phase ≠ .faulted) (ht : t.status.phase ≠ .faulted) : ∃ v, t = s.setResult v := by
  obtain hw | ⟨c, -, rfl⟩ := exec_next_of_not_faulted hs h
  · cases hw with
    | result _ v => exact ⟨v, rfl⟩
    | nothing | element _ _ | config _ _ | index _ _ | emptyArray _ _ => cases hquery
  · exact absurd rfl ht

/-- R56: no query reads `RESULT`. -/
theorem commandEffect_setResult {j : Instr} (hquery : j.isQuery = true) (s : State) (v : Word) :
    commandEffect (s.setResult v) j = commandEffect s j := by
  cases j with
  | nop | new | push | build | setreg => cases hquery
  | _ => rfl

/-- Settles O39: the first query leaves its value in `RESULT`, which the second does not read. -/
theorem queriesDoNotInterfere : Obligations.QueriesDoNotInterfere := by
  unfold Obligations.QueriesDoNotInterfere
  intro s t u i j a0 a1 b0 b1 hi hj hb ht htb hu
  obtain ⟨v, rfl⟩ := eq_setResult_of_query hi ht (by simp [State.withArgs, hb]) (by simp [htb])
  have hf : (s.withArgs b0 b1).status.phase ≠ .faulted := by simp [State.withArgs, hb]
  have hsecond : exec j (((s.withArgs a0 a1).setResult v).withArgs b0 b1) =
      conclude j ((s.withArgs b0 b1).setResult v) (commandEffect (s.withArgs b0 b1) j) :=
    (exec_of_not_faulted (s := (s.withArgs b0 b1).setResult v) hf j).trans
      (congrArg _ (commandEffect_setResult hj _ v))
  rw [exec_of_not_faulted hf] at hu
  rw [hsecond]
  obtain hx | ⟨c, hx, rfl⟩ := conclude_next hu
  · exact ⟨u, by rw [hx, conclude], rfl, rfl, rfl, fun _ => rfl⟩
  · rw [hx, raiseFault_of_not_faulted _ hf]
    exact ⟨_, congrArg _ (raiseFault_of_not_faulted ((s.withArgs b0 b1).setResult v) hf c _), rfl, rfl, rfl, nofun⟩

end Sys2Proof.Machine
end

section
/-! Construction: a pushed element is read back (`40_bitpacked_array.md` R72, R74), the default parameters build
(`42_rank.md` R86, `43_select.md` R95), and the steps of CONSTRUCT (`44_facade_control.md` R116). -/

namespace Sys2Proof.Machine

theorem wellFormed_iff (p : Params) :
    p.wellFormed = true ↔ 1 ≤ p.lutS ∧ p.lutS ≤ 64 ∧ 64 * p.maxWords < 2 ^ 64 := by
  simp [Params.wellFormed, and_assoc]

/-! ### A read after a write -/

/-- R41, R43: a read of the range written gives the low bits of the value. -/
theorem memRead_memWrite_same {m : Memory} (hm : m.wf) (p len v : Nat) :
    memRead (memWrite m p len v) p len = v % 2 ^ len := by
  refine Nat.eq_of_testBit_eq fun t => ?_
  rw [testBit_memRead, streamBit_memWrite m hm, Nat.testBit_mod_two_pow]
  by_cases ht : t < len <;> simp [ht]

/-- R41, R43: a read that ends where the write begins is not changed by it. -/
theorem memRead_memWrite_of_le {m : Memory} (hm : m.wf) {q n p : Nat} (h : q + n ≤ p) (len v : Nat) :
    memRead (memWrite m p len v) q n = memRead m q n := by
  refine Nat.eq_of_testBit_eq fun t => ?_
  rw [testBit_memRead, testBit_memRead, streamBit_memWrite m hm]
  by_cases ht : t < n
  · rw [if_neg (by omega)]
  · simp [ht]

/-! ### PUSH and GET -/

section
variable {s : State}

theorem exec_push_of_fits (ho : s.status.phase = .opened) (hv : ¬ PushOverwide s) (hc : ¬ PushOverflows s) :
    exec .push s = .next (s.setArray (pushedArray s)) := by
  obtain ⟨hb, hf⟩ := phase_ne_of_opened ho
  exact runCommand_of_ok hf .push (pushEffect_of_fits hb hv hc)

theorem op0_lt_of_not_overwide (hu : s.array.unit.toNat ≤ 64) (hv : ¬ PushOverwide s) :
    s.op0 < 2 ^ s.array.unit.toNat := by
  obtain hlt | heq := Nat.lt_or_eq_of_le hu
  · exact Nat.not_le.1 fun h => hv ⟨hlt, h⟩
  · exact heq ▸ s.port.arg0.isLt

/-- R74: GET of a stored element reads its `UNIT` bits. -/
theorem exec_get_of_lt (hf : s.status.phase ≠ .faulted) (hu : s.array.unit.toNat ≤ 64) {i : Word}
    (hi : i.toNat < s.array.len.toNat) :
    exec .get (s.setArg0 i) = .next ((s.setArg0 i).setResult
      (.ofNat 64 (memRead s.array.mem (i.toNat * s.array.unit.toNat) s.array.unit.toNat))) := by
  have hend : (i.toNat + 1) * s.array.unit.toNat ≤ s.array.nbits := Nat.mul_le_mul_right _ hi
  have hextract : extract s.array (i.toNat * s.array.unit.toNat) ((i.toNat + 1) * s.array.unit.toNat) false =
      .ok (memRead s.array.mem (i.toNat * s.array.unit.toNat) s.array.unit.toNat) := by
    rw [Nat.succ_mul] at hend ⊢
    rw [extract_eq_readRange (by omega) (by omega), Nat.min_eq_left hend, Nat.add_sub_cancel_left]
    rfl
  exact runCommand_of_ok (s := s.setArg0 i) hf .get (congrArg (resultOf (s.setArg0 i)) hextract)

/-- R72, R74: after PUSH, GET reads the elements up to the pushed one from the bits that PUSH wrote. -/
theorem exec_get_pushedArray (hf : s.status.phase ≠ .faulted) (hu : s.array.unit.toNat ≤ 64)
    (hc : ¬ PushOverflows s) {i : Word} (hi : i.toNat ≤ s.array.len.toNat) :
    exec .get ((s.setArray (pushedArray s)).setArg0 i) = .next (((s.setArray (pushedArray s)).setArg0 i).setResult
      (.ofNat 64 (memRead (memWrite s.array.mem (s.array.len.toNat * s.array.unit.toNat) s.array.unit.toNat s.op0)
        (i.toNat * s.array.unit.toNat) s.array.unit.toNat))) :=
  exec_get_of_lt (s := s.setArray (pushedArray s)) hf hu
    ((Nat.lt_succ_of_le hi).trans_eq (toNat_len_pushedArray hc).symm)

end

/-- Settles O19: GET of the new element reads the range that PUSH wrote, and GET of an earlier element reads a range
that ends before it. -/
theorem pushedElementsAreReadBack : Obligations.PushedElementsAreReadBack := by
  unfold Obligations.PushedElementsAreReadBack
  intro s hinv ho (hv : _ ∨ s.op0 < _) hlen hspace
  obtain ⟨-, hf⟩ := phase_ne_of_opened ho
  have hwide : ¬ PushOverwide s := by rintro ⟨hu, h⟩; omega
  have hfits : ¬ PushOverflows s := not_or.2 ⟨hlen, Nat.not_lt.2 hspace⟩
  refine ⟨_, exec_push_of_fits ho hwide hfits, ?pushed,
    fun i hi => ⟨_, exec_get_of_lt hf hinv.unitBound hi, ?earlier⟩⟩
  case pushed =>
    have hget := exec_get_pushedArray hf hinv.unitBound hfits (i := s.array.len) le_rfl
    rwa [memRead_memWrite_same hinv.memCanonical, Nat.mod_eq_of_lt (op0_lt_of_not_overwide hinv.unitBound hwide),
      ofNat_op0] at hget
  case earlier =>
    have hbefore : i.toNat * s.array.unit.toNat + s.array.unit.toNat ≤ s.array.len.toNat * s.array.unit.toNat :=
      Nat.succ_mul i.toNat _ ▸ Nat.mul_le_mul_right _ hi
    have hget := exec_get_pushedArray hf hinv.unitBound hfits hi.le
    rwa [memRead_memWrite_of_le hinv.memCanonical hbefore] at hget

/-! ### BUILD -/

/-- R86, R95: with every configuration register 0, the default parameters are legal at every length. -/
theorem buildLegal_zero {hw : Params} (h : hw.wellFormed = true) (n : Nat) : buildLegal hw ParamRegs.zero n := by
  obtain ⟨hpos, -, -⟩ := (wellFormed_iff hw).1 h
  have hs : rankS hw ParamRegs.zero n = min hw.lutS (max 1 (fl2 n / 2)) := rfl
  have hL : rankL hw ParamRegs.zero n = rankS hw ParamRegs.zero n * (4 * rankS hw ParamRegs.zero n) := by
    show (2 * _) ^ 2 = _
    ring
  have hone : 1 ≤ rankS hw ParamRegs.zero n := by omega
  refine (buildLegal_iff hw ParamRegs.zero n).2 ⟨hone, by omega, ?_, ?_, Nat.le_max_left 2 _, hpos, le_rfl⟩
  · rw [hL]
    exact Nat.le_mul_of_pos_right _ (by omega)
  · rw [hL, Nat.mul_mod_right]

theorem exec_build_of_legal {s : State} (ho : s.status.phase = .opened) (hu : s.array.unit = 1)
    (hlegal : buildLegal s.hw s.cfg s.array.len.toNat) :
    exec .build s = .next ((s.setIndex (builtIndex s.hw s.cfg s.array.mem s.array.len.toNat)).setPhase .built) := by
  obtain ⟨hb, hf⟩ := phase_ne_of_opened ho
  exact runCommand_of_ok hf .build (buildEffect_of_legal hb hu hlegal)

/-- Settles O28, since the default parameters are legal. -/
theorem defaultParametersAlwaysBuild : Obligations.DefaultParametersAlwaysBuild := by
  unfold Obligations.DefaultParametersAlwaysBuild
  intro s hinv ho hu (hcfg : s.cfg = ParamRegs.zero)
  exact ⟨_, exec_build_of_legal ho hu (hcfg ▸ buildLegal_zero hinv.hwLegal _), rfl⟩

/-! ### Runs -/

/-- The events `l` are the next to arrive, and the steps that take them lead from `s` to `t`. -/
def Takes (l : List HostEvent) (s t : State) : Prop :=
  s.pending = l ++ t.pending ∧ ∀ n, core.run (l.length + n) s = core.run n t

theorem Takes.refl (s : State) : Takes [] s s := ⟨rfl, fun n => by rw [List.length_nil, Nat.zero_add]⟩

theorem Takes.trans {l₁ l₂ : List HostEvent} {s t u : State} (h₁ : Takes l₁ s t) (h₂ : Takes l₂ t u) :
    Takes (l₁ ++ l₂) s u := by
  obtain ⟨hp₁, hrun₁⟩ := h₁
  obtain ⟨hp₂, hrun₂⟩ := h₂
  refine ⟨by rw [hp₁, hp₂, List.append_assoc], fun n => ?_⟩
  rw [List.length_append, Nat.add_assoc, hrun₁, hrun₂]

theorem Takes.pending_eq {l rest : List HostEvent} {s t : State} (h : Takes l s t) (hp : s.pending = l ++ rest) :
    t.pending = rest := by
  obtain ⟨hs, -⟩ := h
  exact List.append_cancel_left (hs.symm.trans hp)

theorem Takes.run_eq {l : List HostEvent} {s t : State} (h : Takes l s t) : core.run l.length s = .next t := h.2 0

section
variable {s t : State} {rest : List HostEvent}

theorem takes_event {e : HostEvent} (hp : s.pending = e :: rest) (h : applyEvent e (s.setPending rest) = .next t)
    (ht : t.pending = rest) : Takes [e] s t := by
  have hstep : core.step s = .next t := (step_of_pending hp).trans h
  refine ⟨by rw [hp, ht, List.singleton_append], fun n => ?_⟩
  rw [List.length_singleton, Nat.add_comm]
  simp only [Host.Core.run, hstep]

/-- R68: a line without operands is the write of its command word. -/
theorem takes_line0 {i : Instr} (hp : s.pending = lineEvents (line0 i) ++ rest)
    (h : exec i (s.setPending rest) = .next t) : Takes (lineEvents (line0 i)) s t := by
  have hword : ((encode i).setWidth 64).setWidth 32 = encode i := BitVec.eq_of_toNat_eq (by simp)
  obtain ⟨-, -, -, ht, -⟩ := onlyTheNamedCommandsWriteEachState i _ t h
  refine takes_event hp ?_ ht
  rw [← commandWrite_of_decode (decode_encode i), ← hword] at h
  exact h

/-- R68: a line with one operand is the write of `ARG0` and then that of its command word. -/
theorem takes_line1 {i : Instr} {a : Word} (hp : s.pending = lineEvents (line1 i a) ++ rest)
    (h : exec i ((s.setPending rest).setArg0 a) = .next t) : Takes (lineEvents (line1 i a)) s t :=
  (takes_event (t := (s.setPending (lineEvents (line0 i) ++ rest)).setArg0 a) hp rfl rfl).trans (takes_line0 rfl h)

end

/-! ### CONSTRUCT -/

/-- What CONSTRUCT leaves of the state it starts from: the parameters, and `RESULT`. -/
def SameSetup (s t : State) : Prop := t.hw = s.hw ∧ t.cfg = s.cfg ∧ t.port.result = s.port.result

theorem SameSetup.trans {s t u : State} (h₁ : SameSetup s t) (h₂ : SameSetup t u) : SameSetup s u := by
  obtain ⟨hhw₁, hcfg₁, hresult₁⟩ := h₁
  obtain ⟨hhw₂, hcfg₂, hresult₂⟩ := h₂
  exact ⟨hhw₂.trans hhw₁, hcfg₂.trans hcfg₁, hresult₂.trans hresult₁⟩

/-- A state of the invariant in OPEN that stores exactly the bits. -/
structure Stores (s : State) (bits : List Bool) : Prop where
  inv : Inv s
  opened : s.status.phase = .opened
  unit : s.array.unit = 1
  length : s.array.len.toNat = bits.length
  bit : ∀ k, (h : k < bits.length) → streamBit s.array.mem k = bits[k]

/-- What is stored does not depend on the events to come or on the operand. -/
theorem Stores.setPort {s : State} {bits : List Bool} (h : Stores s bits) (l : List HostEvent) (a : Word) :
    Stores ((s.setPending l).setArg0 a) bits :=
  { h with inv := (h.inv.setPending l).setArg0 a }

theorem stores_new {s : State} (hinv : Inv s) (hf : s.status.phase ≠ .faulted) (ha : s.port.arg0 = 1) :
    ∃ t, exec .new s = .next t ∧ Stores t [] ∧ SameSetup s t := by
  have hle : s.op0 ≤ 64 := by rw [State.op0, ha]; decide
  refine ⟨_, runCommand_of_ok hf .new (newEffect_of_le hle), ⟨?inv, rfl, ?unit, rfl, nofun⟩, rfl, rfl, rfl⟩
  case inv => simpa only [State.op0, BitVec.ofNat_toNat] using hinv.of_new hf hle
  case unit =>
    show s.port.arg0.setWidth 7 = 1
    rw [ha]
    rfl

theorem toNat_bitOperand (b : Bool) : (bitOperand b).toNat = b.toNat := by cases b <;> rfl

theorem stores_push {s : State} {bits : List Bool} {b : Bool} (h : Stores s bits)
    (hspace : bits.length + 1 ≤ 64 * s.hw.maxWords) (ha : s.port.arg0 = bitOperand b) :
    ∃ t, exec .push s = .next t ∧ Stores t (bits ++ [b]) ∧ SameSetup s t := by
  obtain ⟨hinv, ho, hu, hlen, hbit⟩ := h
  obtain ⟨hb, -⟩ := phase_ne_of_opened ho
  obtain ⟨-, -, hmax⟩ := (wellFormed_iff _).1 hinv.hwLegal
  have hunit : s.array.unit.toNat = 1 := congrArg BitVec.toNat hu
  have hop : s.op0 = b.toNat := (congrArg BitVec.toNat ha).trans (toNat_bitOperand b)
  have hwide : ¬ PushOverwide s := by
    rintro ⟨-, hle⟩
    rw [hunit, hop] at hle
    have := b.toNat_lt
    omega
  have hfits : ¬ PushOverflows s := by
    rw [PushOverflows, hunit, hlen]
    omega
  refine ⟨_, exec_push_of_fits ho hwide hfits,
    ⟨hinv.setArray_pushedArray hb hfits, ho, hu, ?length, fun k hk => ?bit⟩, rfl, rfl, rfl⟩
  case length => rw [State.setArray_array, toNat_len_pushedArray hfits, hlen, List.length_append, List.length_singleton]
  case bit =>
    refine (streamBit_memWrite _ hinv.memCanonical _ _ _ k).trans ?_
    rw [hunit, hlen, hop, Nat.mul_one]
    obtain hlt | heq := Nat.lt_or_eq_of_le (Nat.le_of_lt_succ (by simpa using hk))
    · rw [if_neg (by omega), List.getElem_append_left hlt, hbit k hlt]
    · subst heq
      rw [if_pos ⟨le_rfl, Nat.lt_succ_self _⟩, Nat.sub_self, Nat.testBit_bool_toNat, List.getElem_concat_length rfl]
      simp

/-- The writes of the PUSH lines of a bit sequence. -/
def pushEvents (bits : List Bool) : List HostEvent := bits.flatMap fun b => lineEvents (line1 .push (bitOperand b))

/-- R116: the pushes append their bits, in order, to those that are stored. -/
theorem takes_pushEvents {rest : List HostEvent} (bits : List Bool) {s : State} {stored : List Bool}
    (h : Stores s stored) (hspace : stored.length + bits.length ≤ 64 * s.hw.maxWords)
    (hp : s.pending = pushEvents bits ++ rest) :
    ∃ t, Takes (pushEvents bits) s t ∧ Stores t (stored ++ bits) ∧ SameSetup s t := by
  induction bits generalizing s stored with
  | nil => exact ⟨s, .refl s, by rwa [List.append_nil], rfl, rfl, rfl⟩
  | cons b bits ih =>
    have hp' : s.pending = lineEvents (line1 .push (bitOperand b)) ++ (pushEvents bits ++ rest) := hp
    rw [List.length_cons] at hspace
    obtain ⟨t, hexec, hstores, hsame⟩ := stores_push (b := b)
      (s := (s.setPending (pushEvents bits ++ rest)).setArg0 (bitOperand b)) (h.setPort _ _) (by simp; omega) rfl
    have htakes := takes_line1 hp' hexec
    obtain ⟨hhw, -⟩ := id hsame
    obtain ⟨u, htakes', hstores', hsame'⟩ := ih hstores (by rw [hhw]; simp; omega) (htakes.pending_eq hp')
    refine ⟨u, htakes.trans htakes', ?_, hsame.trans hsame'⟩
    rwa [List.append_assoc] at hstores'

/-- Settles O53: NEW leaves an empty array of width 1, the pushes store the bits, and BUILD, whose parameters are
legal for their number, indexes them. -/
theorem constructStoresAndIndexesTheBits : Obligations.ConstructStoresAndIndexesTheBits := by
  unfold Obligations.ConstructStoresAndIndexesTheBits
  intro s bits rest hinv hf hspace hlegal hp
  rw [programEvents_construct] at hp ⊢
  have hnew : s.pending = lineEvents (line1 .new 1) ++ (pushEvents bits ++ (lineEvents (line0 .build) ++ rest)) := by
    rw [hp, List.append_assoc, List.append_assoc]
    rfl
  obtain ⟨t, hexec₁, hstores₁, hsame₁⟩ := stores_new ((hinv.setPending (pushEvents bits ++ _)).setArg0 1) hf rfl
  have htakes₁ := takes_line1 hnew hexec₁
  obtain ⟨hhw₁, -⟩ := id hsame₁
  obtain ⟨u, htakes₂, hstores₂, hsame₂⟩ :=
    takes_pushEvents bits hstores₁ (by rw [hhw₁]; simpa using hspace) (htakes₁.pending_eq hnew)
  have hbuild := htakes₂.pending_eq (htakes₁.pending_eq hnew)
  obtain ⟨hinv₂, ho, hu, hlen, hbit⟩ := hstores₂
  obtain ⟨hhw, hcfg, hresult⟩ := hsame₁.trans hsame₂
  have hlegal₂ : buildLegal u.hw u.cfg u.array.len.toNat := by rw [hlen, hhw, hcfg]; exact hlegal
  have htakes₃ := takes_line0 hbuild (exec_build_of_legal (s := u.setPending rest) ho hu hlegal₂)
  obtain ⟨-, hf₂⟩ := phase_ne_of_opened ho
  exact ⟨_, ((htakes₁.trans htakes₂).trans htakes₃).run_eq, rfl, hinv₂.fault_eq_noFault hf₂, hu, hlen, hbit, hcfg,
    hresult, rfl, (hinv₂.setPending rest).of_build ho hu hlegal₂⟩

end Sys2Proof.Machine
end
